-- ==== Sys2Proof/Word.lean ====
section
/-!
DEFINITION. The two word sizes of the MQC display core (00_scope.md R13): a byte is 8 bits, a word is 16 bits.
Bits are numbered from 0, the least significant.
-/

namespace Sys2Proof

/-- A byte: a framebuffer byte, a glyph column, a character code, a bus byte (R13). -/
abbrev Byte := BitVec 8

/-- A command word: a header or an operand (R8, R13). -/
abbrev Word := BitVec 16

end Sys2Proof
end

