-- ==== Sys2Proof/Config.lean ====
section
/-!
DEFINITION. What is fixed for one block: the geometry the source gives (00_scope.md R6, R7), the OPEN parameters of R9 as constants
without a body, and the free values: what the spec leaves at any value. Nothing in Lean can evaluate a constant without a body, so a
theorem about the model holds for every value of it.
-/

namespace Sys2Proof

namespace Config

/-! ## Geometry (R6, R7) -/

/-- Visible width in pixels, columns 0..71 (R6). -/
abbrev width : Nat := 72
/-- Visible height in pixels, rows 0..39 (R6). -/
abbrev height : Nat := 40
/-- First panel column of the visible region (R6). -/
abbrev xOffset : Nat := 28
/-- Columns of a glyph (R6). -/
abbrev glyphW : Nat := 5
/-- Rows of a glyph (R6). -/
abbrev glyphH : Nat := 7
/-- Advance per character: five columns of glyph and one of spacing (R6). -/
abbrev cellW : Nat := 6
/-- Pixel rows of a text line: seven of glyph and three of gap (R6). -/
abbrev lineH : Nat := 10
/-- First character code with a glyph (R6). -/
abbrev glyphFirst : Nat := 32
/-- Last character code with a glyph (R6). -/
abbrev glyphLast : Nat := 126
/-- Pages of eight rows: `H / 8` (R7). -/
abbrev pages : Nat := 5
/-- Framebuffer bytes: `W * PAGES` (R7). -/
abbrev fbBytes : Nat := 360
/-- Bytes of the glyph LUT: 95 entries of 5 columns (R7). -/
abbrev glyphRomBytes : Nat := 475
/-- Bytes of the text latch TXT[0..254] (R20), the longest text (TXT_MAX, R8). -/
abbrev txtMax : Nat := 255

end Config

/-! ## Vocabulary of the parameters and of the free values -/

/-- The table PANEL_OPC: the controller's opcode bytes and fixed parameter bytes (43_display_controller.md R183). -/
structure PanelOpc where
  displayOff      : Byte
  displayOn       : Byte
  clkDiv          : Byte
  mux             : Byte
  offset          : Byte
  startLine       : Byte
  chargePump      : Byte
  prmChargePumpOn : Byte
  addrMode        : Byte
  prmAddrHoriz    : Byte
  segRemapInv     : Byte
  comScanInv      : Byte
  comPins         : Byte
  contrast        : Byte
  precharge       : Byte
  vcomh           : Byte
  resume          : Byte
  normal          : Byte
  colAddr         : Byte
  pageAddr        : Byte
  deriving DecidableEq, Repr, Inhabited

/-- The OPEN parameter bytes of the init sequence: P_CLKDIV, P_COMPINS, P_CONTRAST, P_PRECHARGE, P_VCOMH (R9). -/
structure PanelParams where
  clkDiv    : Byte
  comPins   : Byte
  contrast  : Byte
  precharge : Byte
  vcomh     : Byte
  deriving DecidableEq, Repr, Inhabited

/-- What comes from outside to end one open transaction (43_display_controller.md R180, R181; 70_reset_and_hazards.md R251). -/
inductive XpKind where
  /-- The transport's answer is present at this clock cycle, counted from the cycle the control byte is offered;
  `err` is `xp_rsp_err`. -/
  | answer (cycle : Nat) (err : Bool)
  /-- The transport never answers. -/
  | silent
  /-- `rst_n` goes low while the transaction is open. -/
  | reset
  deriving DecidableEq, Repr, Inhabited

/-- The outside's part in one transaction: what ends it, and how many of its bytes (the control byte included) have moved by
then. The transport may answer before the last byte (R180); a number beyond the transaction's length means all of them. -/
structure XpEvent where
  moved : Nat
  kind  : XpKind
  deriving DecidableEq, Repr, Inhabited

/-- Working registers of the line engine (10_state.md R32; 41_drawing.md R121). -/
structure LineRegs where
  x   : Int
  y   : Int
  dx  : Int
  dy  : Int
  sx  : Int
  sy  : Int
  err : Int
  deriving DecidableEq, Repr, Inhabited

/-- The engine's working registers (R32): the line engine's, the fill engine's span row and column, the text engine's character
index and `char_x`, and the sequencer's transaction index. -/
structure Work where
  line    : LineRegs
  spanRow : Int
  spanCol : Int
  charIdx : Nat
  charX   : Int
  txnIdx  : Nat
  deriving DecidableEq, Repr, Inhabited

namespace Config

/-! ## OPEN parameters (R9), without a value -/

/-- BUS_ADDR: the panel controller's 7-bit bus address (R9, U20). -/
opaque busAddr : BitVec 7

/-- T_XFER less one: R9 gives `T_XFER ≥ 1`. -/
opaque tXferPred : Nat

/-- T_XFER: the transport timeout in clock cycles, one value for every transaction (R9; 43_display_controller.md R181, U21). -/
def tXfer : Nat := tXferPred + 1

/-- PANEL_OPC (R183, U23). -/
opaque panelOpc : PanelOpc

/-- The parameter bytes of the init sequence (R9, U22). -/
opaque panelParams : PanelParams

/-- GLYPH_ROM: the byte at LUT address `5*g + c` (42_text.md R151, U24). -/
opaque glyphByte : Nat → Byte

/-! ## Free values -/

/-- FREE VALUE (U1, R250). What framebuffer byte `a` holds after the `n`-th reset: any value. -/
opaque framebufferByte : (n a : Nat) → Byte

/-- FREE VALUE (U13). What ends the `n`-th transaction, where the state does not say it: any event. -/
opaque transportEvent : Nat → XpEvent

/-- FREE VALUE (U2, R32). The working registers after the `n`-th ended command: unspecified. -/
opaque freeWork : Nat → Work

end Config

end Sys2Proof
end

