-- ==== Sys2Proof/Syntax.lean ====
section
/-!
DEFINITION. The commands of MQC-CMD v1, one constructor for each row of spec/opcode_table.json (30_encoding.md R73, R75).
Operands are the raw 16-bit operand words; a meaning reads them as two's complement (R72). A text is its list of bytes (R76).
-/

namespace Sys2Proof

/-- A complete command. -/
inductive Instr where
  /-- CLEAR (40_framebuffer.md R103). -/
  | clear
  /-- PIXEL x, y (R104). -/
  | pixel (x y : Word)
  /-- LINE x0, y0, x1, y1 (41_drawing.md R125). -/
  | line (x0 y0 x1 y1 : Word)
  /-- RECT x, y, w, h (R127). -/
  | rect (x y w h : Word)
  /-- FILL x, y, w, h (R129). -/
  | fill (x y w h : Word)
  /-- TEXT x, y, "text" (42_text.md R155). -/
  | text (x y : Word) (text : List Byte)
  /-- TEXTC line, "text" (R157). -/
  | textc (line : Word) (text : List Byte)
  /-- GETPIX x, y (R105). -/
  | getpix (x y : Word)
  /-- INIT (43_display_controller.md R190). -/
  | init
  /-- UPDATE (R193). -/
  | update
  /-- POWER on|off (R196). -/
  | power (on : Bool)
  deriving DecidableEq, Repr

end Sys2Proof
end

