-- ==== Sys2Proof/WellFormed.lean ====
section
/-!
DEFINITION. Which commands can be encoded. Every operand word is legal (30_encoding.md R79); the one limit is the length of a text,
which is the 8-bit field AUX (R76): at most 255 bytes.
-/

namespace Sys2Proof

/-- The command has an encoding. -/
def Instr.wellFormed : Instr → Bool
  | .clear => true
  | .pixel _ _ => true
  | .line _ _ _ _ => true
  | .rect _ _ _ _ => true
  | .fill _ _ _ _ => true
  | .text _ _ t => decide (t.length ≤ Config.txtMax)
  | .textc _ t => decide (t.length ≤ Config.txtMax)
  | .getpix _ _ => true
  | .init => true
  | .update => true
  | .power _ => true

end Sys2Proof
end

