-- ==== Sys2Proof/Decode.lean ====
section
/-!
DEFINITION. From command words to commands and back (30_encoding.md R71–R80). The command stream is a sequence of 16-bit words: no byte
order arises (20_memory.md R52).

A header is read by `decodeHeader`; `Header.build` makes the command from a header, four operand words and the text bytes. Both the
decoder of a word list (`decode`) and the engine's reading of its latches go through these two.
-/

namespace Sys2Proof

/-! ## Fields of a word -/

/-- Bits [7:0] of a word (R13). -/
def Word.lo (w : Word) : Byte := w.extractLsb' 0 8

/-- Bits [15:8] of a word (R13). -/
def Word.hi (w : Word) : Byte := w.extractLsb' 8 8

/-- The word `{hi, lo}`: high byte `hi`, low byte `lo` (R13). -/
def Word.ofBytes (hi lo : Byte) : Word := hi ++ lo

/-! ## Headers -/

/-- A legal header: which command, with what AUX carries (R73, R77). -/
inductive Header where
  | clear
  | pixel
  | line
  | rect
  | fill
  | text (len : Byte)
  | textc (len : Byte)
  | getpix
  | init
  | update
  | power (on : Bool)
  deriving DecidableEq, Repr

/-- Why a header word is rejected (R79). -/
inductive HeaderError where
  /-- OPC is none of the eleven values of R73. -/
  | illegalOpcode
  /-- AUX, or POWER's AUX[7:1], is not zero where it is reserved. -/
  | reservedAux
  deriving DecidableEq, Repr

/-- Why a list of words is no command. -/
inductive DecodeError where
  /-- There is no word at all. -/
  | noWord
  /-- The header is rejected. -/
  | header (e : HeaderError)
  /-- Fewer words stand there than the header's length says (70_reset_and_hazards.md R258). -/
  | truncated
  deriving DecidableEq, Repr

/-- The field OPC of a header word, bits [7:0] (R71). -/
def opcField (h : Word) : Byte := h.lo

/-- The field AUX of a header word, bits [15:8] (R71). -/
def auxField (h : Word) : Byte := h.hi

/-- A header whose AUX is reserved and must be zero (R79 item 2). -/
def plainHeader (aux : Byte) (k : Header) : Except HeaderError Header :=
  if aux = 0x00#8 then .ok k else .error .reservedAux

/-- POWER's header: AUX[0] is the on bit, AUX[7:1] is reserved (R71, R77, R79 item 2). -/
def powerHeader (aux : Byte) : Except HeaderError Header :=
  if aux.extractLsb' 1 7 = 0#7 then .ok (.power (aux.getLsbD 0)) else .error .reservedAux

/-- The opcode map (R73) with the checks 1 and 2 of R79, in that order. -/
def decodeHeader (h : Word) : Except HeaderError Header :=
  let opc := opcField h
  let aux := auxField h
  if opc = 0x01#8 then plainHeader aux .clear
  else if opc = 0x02#8 then plainHeader aux .pixel
  else if opc = 0x03#8 then plainHeader aux .line
  else if opc = 0x04#8 then plainHeader aux .rect
  else if opc = 0x05#8 then plainHeader aux .fill
  else if opc = 0x06#8 then .ok (.text aux)
  else if opc = 0x07#8 then .ok (.textc aux)
  else if opc = 0x08#8 then plainHeader aux .getpix
  else if opc = 0x10#8 then plainHeader aux .init
  else if opc = 0x11#8 then plainHeader aux .update
  else if opc = 0x12#8 then powerHeader aux
  else .error .illegalOpcode

/-- `ceil(n / 2)` as R74 writes it. -/
def ceilHalf (n : Nat) : Nat := (n + 1) / 2

/-- LEN: a command's length in words, a function of its header word alone (R74). -/
def cmdLen (h : Word) : Nat :=
  let opc := opcField h
  if opc = 0x01#8 ∨ opc = 0x10#8 ∨ opc = 0x11#8 ∨ opc = 0x12#8 then 1
  else if opc = 0x02#8 ∨ opc = 0x08#8 then 3
  else if opc = 0x03#8 ∨ opc = 0x04#8 ∨ opc = 0x05#8 then 5
  else if opc = 0x06#8 then 3 + ceilHalf (auxField h).toNat
  else if opc = 0x07#8 then 2 + ceilHalf (auxField h).toNat
  else 1

/-- The number of operand words before the text words, for a header word that carries a text: two for TEXT, one for TEXTC (R75);
none for the others, which carry no text. -/
def textStart (h : Word) : Option Nat :=
  if opcField h = 0x06#8 then some 2
  else if opcField h = 0x07#8 then some 1
  else none

/-- The command that a header, the operand words 1 to 4 and the text bytes make (R75, R76). -/
def Header.build (k : Header) (op1 op2 op3 op4 : Word) (txt : List Byte) : Instr :=
  match k with
  | .clear => .clear
  | .pixel => .pixel op1 op2
  | .line => .line op1 op2 op3 op4
  | .rect => .rect op1 op2 op3 op4
  | .fill => .fill op1 op2 op3 op4
  | .text len => .text op1 op2 (txt.take len.toNat)
  | .textc len => .textc op1 (txt.take len.toNat)
  | .getpix => .getpix op1 op2
  | .init => .init
  | .update => .update
  | .power on => .power on

/-! ## Text words -/

/-- The bytes of text words in order, the low byte of each word first (R76); the padding byte of an odd length is the last. -/
def unpackText : List Word → List Byte
  | [] => []
  | w :: ws => w.lo :: w.hi :: unpackText ws

/-- The text words of a text, the low byte first, with padding 0x00 (R76, R81). -/
def packText : List Byte → List Word
  | [] => []
  | [b] => [Word.ofBytes 0x00#8 b]
  | b :: c :: t => Word.ofBytes c b :: packText t

/-! ## The decoder -/

/-- The command that a legal header word and its operand words make (R75, R76). -/
def buildFromWords (h : Word) (k : Header) (ops : List Word) : Instr :=
  k.build (ops.getD 0 0#16) (ops.getD 1 0#16) (ops.getD 2 0#16) (ops.getD 3 0#16)
    (unpackText (ops.drop ((textStart h).getD 0)))

/-- Reads one command from the front of a word list and gives it with the words after it. Total: a word list that is no command is
rejected by name (R79, R80). -/
def decode : List Word → Except DecodeError (Instr × List Word)
  | [] => .error .noWord
  | h :: rest =>
    match decodeHeader h with
    | .error e => .error (.header e)
    | .ok k =>
      if rest.length < cmdLen h - 1 then .error .truncated
      else .ok (buildFromWords h k (rest.take (cmdLen h - 1)), rest.drop (cmdLen h - 1))

/-! ## The encoder (the words an assembler emits, R81) -/

/-- A header word `{AUX, OPC}` (R71). -/
def headerWord (aux opc : Byte) : Word := Word.ofBytes aux opc

/-- AUX of a text of this length (R76). -/
def lenAux (t : List Byte) : Byte := BitVec.ofNat 8 t.length

/-- The words of a well-formed command: its header, then its operand words, then its text words (R71–R76, R81). -/
def encode : Instr → List Word
  | .clear => [headerWord 0x00#8 0x01#8]
  | .pixel x y => [headerWord 0x00#8 0x02#8, x, y]
  | .line x0 y0 x1 y1 => [headerWord 0x00#8 0x03#8, x0, y0, x1, y1]
  | .rect x y w h => [headerWord 0x00#8 0x04#8, x, y, w, h]
  | .fill x y w h => [headerWord 0x00#8 0x05#8, x, y, w, h]
  | .text x y t => headerWord (lenAux t) 0x06#8 :: x :: y :: packText t
  | .textc l t => headerWord (lenAux t) 0x07#8 :: l :: packText t
  | .getpix x y => [headerWord 0x00#8 0x08#8, x, y]
  | .init => [headerWord 0x00#8 0x10#8]
  | .update => [headerWord 0x00#8 0x11#8]
  | .power on => [headerWord (if on then 0x01#8 else 0x00#8) 0x12#8]

/-! ## The opcode table's numbering of bits -/

/-- Word `k` of an instruction whose bits are `w`, `nbits` of them counted: bits `16k+15 .. 16k`; every bit from `nbits` up is 0. -/
def tableWord (nbits w k : Nat) : Word := BitVec.ofNat 16 ((w % 2 ^ nbits) >>> (16 * k))

/-- The words of that instruction, as many as its header says it has (R74): the words are on the command port in this order. -/
def tableWords (nbits w : Nat) : List Word :=
  (List.range (cmdLen (tableWord nbits w 0))).map (tableWord nbits w)

/-- The command the decoder reads from an opcode-table word. -/
def decodeTableWord (nbits w : Nat) : Option Instr :=
  match decode (tableWords nbits w) with
  | .ok (i, _) => some i
  | .error _ => none

end Sys2Proof
end

