-- ==== Sys2Proof/Machine/State.lean ====
section
/-!
DEFINITION. The state of the block (10_state.md R20–R39), the ports around it, and the reasons a step can stop.
All of it is plain data.
-/

namespace Sys2Proof.Machine

/-- A byte memory: one cell for each address of its space, the addresses rising (`Memory.wf`). An address that is not listed does not
exist: it reads as no value. The framebuffer and the glyph LUT are the block's two memories (20_memory.md R53). -/
abbrev Memory := List Host.Cell

/-- PSTATE (R23). The code 11 is never produced (93_implementation_defined.md U3). -/
inductive PState where
  | uninit
  | on
  | off
  deriving DecidableEq, Repr

/-- The answer to a bus transaction (00_scope.md R15), and what XSTAT holds (R36); the code 11 is never produced (U4). -/
inductive Answer where
  | ok
  | error
  | timeout
  deriving DecidableEq, Repr

/-- FCAUSE (60_exceptions.md R220). The codes 6..15 are never produced (U5). -/
inductive Cause where
  | none
  | illegalOpcode
  | reservedAux
  | doubleInit
  | notInitialized
  | noTransport
  deriving DecidableEq, Repr

/-- PARSE (R31). -/
inductive Parse where
  | idle
  | collect
  deriving DecidableEq, Repr

/-- The operand latches OPND[1..4] (R31). -/
structure Opnd where
  op1 : Word
  op2 : Word
  op3 : Word
  op4 : Word
  deriving DecidableEq, Repr

/-- The bytes of a bus transaction: its control byte and its payload (00_scope.md R16). -/
structure Frame where
  ctrl    : Byte
  payload : List Byte
  deriving DecidableEq, Repr

/-- The in-flight transaction (R33): its bytes, how many of them (the control byte included) have moved, and the timeout counter, in
clock cycles from the cycle its control byte is offered (43_display_controller.md R181). -/
structure OpenTxn where
  frame : Frame
  moved : Nat
  count : Nat
  deriving DecidableEq, Repr

/-- How a transaction ended: with an answer, or abandoned by a reset (70_reset_and_hazards.md R251). -/
inductive TxnEnd where
  | answered (a : Answer)
  | abandoned
  deriving DecidableEq, Repr

/-- A transaction the block has issued, as the transport port saw it (43_display_controller.md R180): the address on `xp_addr`, the
bytes the block set out to send, how many of them moved, and how it ended. -/
structure Txn where
  addr  : BitVec 7
  frame : Frame
  moved : Nat
  fin   : TxnEnd
  deriving DecidableEq, Repr

/-- What the outside of the block does next at its inputs other than the transport's answers. -/
inductive HostEvent where
  /-- The host offers this word on the command port (30_encoding.md R70). -/
  | word (w : Word)
  /-- `rst_n` is low for one or more cycles (70_reset_and_hazards.md R250). -/
  | reset
  /-- `xp_present` takes this level (43_display_controller.md R180). -/
  | attach (present : Bool)
  deriving DecidableEq, Repr

/-- The state: the block's own (10_state.md R20), then its ports, then the model's two counters of free values. -/
structure State where
  /-- FB, 360 bytes (R21). -/
  fb         : Memory
  /-- GLYPH_ROM, 475 bytes, never written (R22). -/
  glyphRom   : Memory
  /-- PSTATE (R23). -/
  pstate     : PState
  /-- FAULT (R34). -/
  fault      : Bool
  /-- FCAUSE (R26). -/
  fcause     : Cause
  /-- FWORD (R26). -/
  fword      : Word
  /-- INIT_FAILED (R35). -/
  initFailed : Bool
  /-- XSTAT (R36). -/
  xstat      : Answer
  /-- PIX (R25). -/
  pix        : Bool
  /-- PARSE (R31). -/
  parse      : Parse
  /-- NRX, the number of operand words accepted of the command being collected (R31). -/
  nrx        : Nat
  /-- HDR (R31). -/
  hdr        : Word
  /-- OPND[1..4] (R31). -/
  opnd       : Opnd
  /-- TXT[0..254] (R31). -/
  txt        : List Byte
  /-- EXEC (R37). -/
  exec       : Bool
  /-- The engine's working registers (R32). Their values between commands are unspecified and no rule reads them before writing them:
  a meaning computes with registers of its own, and leaves free values here. -/
  work       : Work
  /-- The in-flight transaction (R33). -/
  inFlight   : Option OpenTxn
  /-- PORT. The level of the input `xp_present`. -/
  xpPresent  : Bool
  /-- PORT. What the outside does next, in order. -/
  host       : List HostEvent
  /-- PORT. What ends the next transactions, in order; past its end, a free value does. -/
  transport  : List XpEvent
  /-- PORT. The transactions issued so far, oldest first. -/
  bus        : List Txn
  /-- MODEL. How many resets there have been: the index of the free framebuffer content. -/
  resets     : Nat
  /-- MODEL. How many commands the engine has ended: the index of the free working registers. -/
  ended      : Nat
  deriving DecidableEq, Repr

/-- Why the model stops with a fault. The block's own faults (60_exceptions.md R220) are no such stop: they are next states. -/
inductive Fault where
  /-- A framebuffer byte is read that the framebuffer does not list. Raised by GETPIX and UPDATE, only in a state whose framebuffer has
  not its canonical form, which no run from reset reaches. Safe: the model stops where the hardware has no such state
  (20_memory.md R54). -/
  | framebufferHole (addr : Nat)
  deriving DecidableEq, Repr

/-- Why the model gives an instruction no meaning. -/
inductive Refusal where
  /-- Raised by `exec` for an instruction that has no meaning yet; no arm does so now. Safe: the model stops. -/
  | notModelled (mnemonic : String)
  deriving DecidableEq, Repr

/-- The framebuffer after the `n`-th reset: its 360 bytes, each a free value (70_reset_and_hazards.md R250, U1). -/
def freshFramebuffer (n : Nat) : Memory :=
  (List.range Config.fbBytes).map fun a => (a, Config.framebufferByte n a)

/-- The glyph LUT: its 475 bytes, each the OPEN parameter's (42_text.md R151). -/
def glyphRomContent : Memory :=
  (List.range Config.glyphRomBytes).map fun a => (a, Config.glyphByte a)

/-- The working registers at the value the model names for reset (DESIGN CHOICE, unsafe: log entry 4). -/
def Work.zero : Work :=
  { line := { x := 0, y := 0, dx := 0, dy := 0, sx := 0, sy := 0, err := 0 }
    spanRow := 0, spanCol := 0, charIdx := 0, charX := 0, txnIdx := 0 }

/-- The machine right after reset (R39, 70_reset_and_hazards.md R250). HDR, OPND, TXT and the working registers are unspecified there:
zero is a DESIGN CHOICE (unsafe: log entries 3 and 4). The ports stand as log entries 5 to 8 say. -/
def State.reset : State where
  fb         := freshFramebuffer 0
  glyphRom   := glyphRomContent
  pstate     := .uninit
  fault      := false
  fcause     := .none
  fword      := 0#16
  initFailed := false
  xstat      := .ok
  pix        := false
  parse      := .idle
  nrx        := 0
  hdr        := 0#16
  opnd       := { op1 := 0#16, op2 := 0#16, op3 := 0#16, op4 := 0#16 }
  txt        := List.replicate Config.txtMax 0#8
  exec       := false
  work       := Work.zero
  inFlight   := none
  xpPresent  := true
  host       := []
  transport  := []
  bus        := []
  resets     := 0
  ended      := 0

end Sys2Proof.Machine
end

