-- ==== Sys2Proof/Machine/Ops.lean ====
section
/-!
DEFINITION. The named operations over memory and registers: the framebuffer's bit ports (40_framebuffer.md R100, R101), drawing a list of
points, fault entry (60_exceptions.md R225), reset (70_reset_and_hazards.md R250), and the end of a command (10_state.md R37).
There is no return from a fault (R227): reset is the only exit.
-/

namespace Sys2Proof.Machine

/-! ## Memory -/

/-- The canonical form of a memory of `size` bytes: one cell for each address below `size`, the addresses rising. No unlisted address
exists, so no cell can equal what an unlisted address reads as. -/
def Memory.wf (size : Nat) (m : Memory) : Bool := m.map Prod.fst == List.range size

/-- `MemRead(a, 1)` (00_scope.md R15): the byte at `a`, or no value where there is no such address. -/
def Memory.read : Memory → Nat → Option Byte
  | [], _ => none
  | c :: m, a => if c.1 = a then some c.2 else Memory.read m a

/-- `MemWrite(a, 1, v)` (R15). Where there is no address `a`, nothing is written. -/
def Memory.write : Memory → Nat → Byte → Memory
  | [], _, _ => []
  | c :: m, a, v => if c.1 = a then (a, v) :: m else c :: Memory.write m a v

/-- The byte write of zero to every address (20_memory.md R55; 40_framebuffer.md R103). -/
def Memory.clear (m : Memory) : Memory := m.map fun c => (c.1, 0x00#8)

/-- The bytes at the addresses from `a` on, `n` of them in ascending order; or the first address that does not exist. -/
def Memory.readRange (m : Memory) (a : Nat) : Nat → Except Nat (List Byte)
  | 0 => .ok []
  | n + 1 =>
    match m.read a with
    | none => .error a
    | some b => (Memory.readRange m (a + 1) n).map (b :: ·)

/-! ## The bit ports -/

/-- `(x, y)` is in bounds: `0 ≤ x ≤ 71` and `0 ≤ y ≤ 39` (R102). -/
def inBounds (x y : Int) : Bool :=
  decide (0 ≤ x) && decide (x < Config.width) && (decide (0 ≤ y) && decide (y < Config.height))

/-- The address of the byte that holds pixel `(x, y)`: `(y div 8) * W + x` (20_memory.md R51). -/
def pixelAddr (x y : Int) : Nat := (y / 8).toNat * Config.width + x.toNat

/-- The bit of that byte: `y mod 8` (R51). -/
def pixelBit (y : Int) : Nat := (y % 8).toNat

/-- The byte with the one bit of row `y` set. -/
def pixelMask (y : Int) : Byte := 1#8 <<< pixelBit y

/-- The bit-set port `SetPixel(x, y)`: ORs one bit into one byte in bounds, nothing out of bounds (R100). -/
def setPixel (m : Memory) (x y : Int) : Memory :=
  if inBounds x y then
    match m.read (pixelAddr x y) with
    | some b => m.write (pixelAddr x y) (b ||| pixelMask y)
    | none => m
  else m

/-- The bit-read port `GetPixel(x, y)`: the pixel's bit in bounds, 0 out of bounds (R101). No value where the framebuffer has no such
byte. -/
def getPixel (m : Memory) (x y : Int) : Option Bool :=
  if inBounds x y then (m.read (pixelAddr x y)).map fun b => b.getLsbD (pixelBit y) else some false

/-- `SetPixel` at each point of a list, in order. -/
def setPixels (m : Memory) (ps : List (Int × Int)) : Memory :=
  ps.foldl (fun m p => setPixel m p.1 p.2) m

/-! ## Registers -/

/-- The end of a command: EXEC clears (10_state.md R37), and the working registers hold unspecified values (R32). -/
def finish (s : State) : State :=
  { s with exec := false, work := Config.freeWork s.ended, ended := s.ended + 1 }

/-- A drawing command's whole effect: `SetPixel` at each of its points (R38: OR of new bits), and its end. -/
def draw (ps : List (Int × Int)) (s : State) : State :=
  finish { s with fb := setPixels s.fb ps }

/-- Fault entry, `raise Fault(cause)` (60_exceptions.md R225): FAULT, FCAUSE, FWORD, PARSE and EXEC, and nothing else. -/
def raiseFault (c : Cause) (s : State) : State :=
  { s with fault := true, fcause := c, fword := s.hdr, parse := .idle, exec := false }

/-- A reset cycle (70_reset_and_hazards.md R250, R251): every reset value of 10_state.md R39, the framebuffer fresh and free; a command
being received or executing and an open transaction are abandoned. The LUT stays (R22), and so do the ports. -/
def takeReset (s : State) : State :=
  { State.reset with
    fb := freshFramebuffer (s.resets + 1)
    glyphRom := s.glyphRom
    xpPresent := s.xpPresent
    host := s.host
    transport := s.transport
    bus := s.bus
    resets := s.resets + 1
    ended := s.ended }

end Sys2Proof.Machine
end

