-- ==== Sys2Proof/Machine/Operands.lean ====
section
/-!
DEFINITION. The operand forms: a word read as a signed integer (30_encoding.md R72), the operand and text latches (10_state.md R31), and
the engine's reading of a complete command from the latches.
-/

namespace Sys2Proof.Machine

/-- `sext_16(w)` (00_scope.md R14): `w - 65536` if bit 15 is set, else `w`. -/
def sext16 (w : Word) : Int := if w.getLsbD 15 then (w.toNat : Int) - 65536 else (w.toNat : Int)

/-- Operand word `k`, counted from 1, goes to OPND[k] for k = 1..4; a later one to none (R31). -/
def Opnd.latch (o : Opnd) (k : Nat) (w : Word) : Opnd :=
  match k with
  | 1 => { o with op1 := w }
  | 2 => { o with op2 := w }
  | 3 => { o with op3 := w }
  | 4 => { o with op4 := w }
  | _ => o

/-- Text word `j` of a text of `len` bytes goes to TXT[2j] (its low byte) and TXT[2j+1] (its high byte); the padding byte of an odd
length goes nowhere (30_encoding.md R76). -/
def latchText (txt : List Byte) (len j : Nat) (w : Word) : List Byte :=
  let t := txt.set (2 * j) w.lo
  if 2 * j + 1 < len then t.set (2 * j + 1) w.hi else t

/-- TXT after operand word `k` of the command with header word `h`: for TEXT and TEXTC every operand word after the fixed ones is
unpacked into TXT (R31). -/
def latchOperandText (h : Word) (txt : List Byte) (k : Nat) (w : Word) : List Byte :=
  match textStart h with
  | none => txt
  | some fixed => if fixed < k then latchText txt (auxField h).toNat (k - fixed - 1) w else txt

/-- The command in the latches (R31): what HDR, OPND and TXT say. -/
def fetch (s : State) : Except HeaderError Instr :=
  match decodeHeader s.hdr with
  | .error e => .error e
  | .ok k => .ok (k.build s.opnd.op1 s.opnd.op2 s.opnd.op3 s.opnd.op4 s.txt)

/-- The fault cause of a rejected header (30_encoding.md R79). -/
def headerCause : HeaderError → Cause
  | .illegalOpcode => .illegalOpcode
  | .reservedAux => .reservedAux

end Sys2Proof.Machine
end

