-- ==== Sys2Proof/Machine/Drawing.lean ====
section
/-!
DEFINITION. The drawing engines: line, rectangle outline, fill (41_drawing.md R120–R130). Each engine is the list of the points it calls
`SetPixel` at, in its order; all arithmetic is on integers (00_scope.md R10).
-/

namespace Sys2Proof.Machine

/-! ## The line engine -/

/-- `abs(v)` (00_scope.md R14). -/
def absInt (v : Int) : Int := (v.natAbs : Int)

/-- `sign(v)`: -1, 0 or +1 (R14). -/
def signInt (v : Int) : Int := if v < 0 then -1 else if v = 0 then 0 else 1

/-- The line engine's registers when it starts (R121). -/
def lineStart (x0 y0 x1 y1 : Int) : LineRegs :=
  let dx := absInt (x1 - x0)
  let dy := absInt (y1 - y0)
  { x := x0, y := y0, dx := dx, dy := dy, sx := signInt (x1 - x0), sy := signInt (y1 - y0), err := dx - dy }

/-- The x update of one iteration: it fires if `e2 > -dy`. -/
def lineStepX (e2 : Int) (r : LineRegs) : LineRegs :=
  if e2 > -r.dy then { r with err := r.err - r.dy, x := r.x + r.sx } else r

/-- The y update of one iteration: it fires if `e2 < dx`. -/
def lineStepY (e2 : Int) (r : LineRegs) : LineRegs :=
  if e2 < r.dx then { r with err := r.err + r.dx, y := r.y + r.sy } else r

/-- One iteration's update: both tests read the same `e2`, computed once, before either update (R121). -/
def lineStep (r : LineRegs) : LineRegs := lineStepY (2 * r.err) (lineStepX (2 * r.err) r)

/-- The points the loop of R121 plots from these registers on, in order: it ends only at its end test. The fuel bounds the loop; with
`max dx dy + 1` of it the end test comes first (R122 item 1). -/
def lineWalk : Nat → Int → Int → LineRegs → List (Int × Int)
  | 0, _, _, _ => []
  | n + 1, x1, y1, r =>
    (r.x, r.y) :: if r.x = x1 ∧ r.y = y1 then [] else lineWalk n x1 y1 (lineStep r)

/-- The points of `DrawLine(x0, y0, x1, y1)` (R121), in bounds or not: the engine never clips (R124), and the endpoints are taken in the
order given (R123). -/
def linePoints (x0 y0 x1 y1 : Int) : List (Int × Int) :=
  lineWalk ((max (absInt (x1 - x0)) (absInt (y1 - y0))).toNat + 1) x1 y1 (lineStart x0 y0 x1 y1)

/-- LINE x0, y0, x1, y1 (R125). -/
def execLine (x0 y0 x1 y1 : Word) (s : State) : Host.Outcome State Fault Refusal :=
  .next (draw (linePoints (sext16 x0) (sext16 y0) (sext16 x1) (sext16 y1)) s)

/-! ## The rectangle-outline engine -/

/-- The points of `RectOutline(x, y, w, h)`: four lines, in this order and direction, with inclusive corners (R126, R130). -/
def rectPoints (x y w h : Int) : List (Int × Int) :=
  linePoints x y (x + w) y
    ++ linePoints (x + w) y (x + w) (y + h)
    ++ linePoints (x + w) (y + h) x (y + h)
    ++ linePoints x (y + h) x y

/-- RECT x, y, w, h (R127). -/
def execRect (x y w h : Word) (s : State) : Host.Outcome State Fault Refusal :=
  .next (draw (rectPoints (sext16 x) (sext16 y) (sext16 w) (sext16 h)) s)

/-! ## The fill engine -/

/-- The integers `a, a+1, …, b-1` in that order; none if `b ≤ a` (00_scope.md R15). -/
def intRange (a b : Int) : List Int := (List.range (b - a).toNat).map fun (k : Nat) => a + (k : Int)

/-- The points of `FillRect(x, y, w, h)` as R128 writes it: one span per row, half open on the right and below. -/
def fillSpans (x y w h : Int) : List (Int × Int) :=
  (intRange y (y + h)).flatMap fun j => (intRange x (x + w)).map fun i => (i, j)

/-- The points of the fill, less rows and columns outside the screen, which an implementation may skip (20_memory.md R59):
`fillPoints_draws_fillSpans` says that the framebuffer comes out the same. -/
def fillPoints (x y w h : Int) : List (Int × Int) :=
  (intRange (max y 0) (min (y + h) Config.height)).flatMap fun j =>
    (intRange (max x 0) (min (x + w) Config.width)).map fun i => (i, j)

/-- FILL x, y, w, h (R129). -/
def execFill (x y w h : Word) (s : State) : Host.Outcome State Fault Refusal :=
  .next (draw (fillPoints (sext16 x) (sext16 y) (sext16 w) (sext16 h)) s)

end Sys2Proof.Machine
end

