-- ==== Sys2Proof/Machine/Framebuffer.lean ====
section
/-!
DEFINITION. The framebuffer commands CLEAR, PIXEL and GETPIX (40_framebuffer.md R103–R105).
-/

namespace Sys2Proof.Machine

/-- CLEAR (R103): every framebuffer byte becomes 0. -/
def execClear (s : State) : Host.Outcome State Fault Refusal :=
  .next (finish { s with fb := s.fb.clear })

/-- PIXEL x, y (R104): `SetPixel(x, y)`. -/
def execPixel (x y : Word) (s : State) : Host.Outcome State Fault Refusal :=
  .next (draw [(sext16 x, sext16 y)] s)

/-- GETPIX x, y (R105): `PIX <- GetPixel(x, y)`. -/
def execGetpix (x y : Word) (s : State) : Host.Outcome State Fault Refusal :=
  match getPixel s.fb (sext16 x) (sext16 y) with
  | some b => .next (finish { s with pix := b })
  | none => .fault (.framebufferHole (pixelAddr (sext16 x) (sext16 y)))

end Sys2Proof.Machine
end

