-- ==== Sys2Proof/Machine/Flags.lean ====
section
/-!
DEFINITION. The host-readable registers and the flag computations: BUSY, STATUS, the register read port (10_state.md R24–R28, R37), the
codes of PSTATE, XSTAT and FCAUSE, and `cmd_ready` (30_encoding.md R70). All are functions of the state: a read has no side effect (R28).
-/

namespace Sys2Proof.Machine

/-- PSTATE's two bits (R23). -/
def PState.code : PState → BitVec 2
  | .uninit => 0b00#2
  | .on => 0b01#2
  | .off => 0b10#2

/-- XSTAT's two bits (R24, R36). -/
def Answer.code : Answer → BitVec 2
  | .ok => 0b00#2
  | .error => 0b01#2
  | .timeout => 0b10#2

/-- FCAUSE's four bits (60_exceptions.md R220). -/
def Cause.code : Cause → BitVec 4
  | .none => 0#4
  | .illegalOpcode => 1#4
  | .reservedAux => 2#4
  | .doubleInit => 3#4
  | .notInitialized => 4#4
  | .noTransport => 5#4

/-- BUSY (R37): a command is partly received or executing; 0 in the fault state (60_exceptions.md R226). -/
def busy (s : State) : Bool := !s.fault && (decide (s.parse = .collect) || s.exec)

/-- STATUS, address 0 (R24): `{0 (9 bits), XSTAT, INIT_FAILED, FAULT, PSTATE, BUSY}`. -/
def statusReg (s : State) : Word :=
  0#9 ++ s.xstat.code ++ BitVec.ofBool s.initFailed ++ BitVec.ofBool s.fault ++ s.pstate.code ++ BitVec.ofBool (busy s)

/-- RESULT, address 1 (R25). -/
def resultReg (s : State) : Word := 0#15 ++ BitVec.ofBool s.pix

/-- FCAUSE, address 2 (R26). -/
def fcauseReg (s : State) : Word := 0#12 ++ s.fcause.code

/-- GEOM, address 4: the constant `{H, W}` (R27). -/
def geomReg : Word := BitVec.ofNat 8 Config.height ++ BitVec.ofNat 8 Config.width

/-- XOFF, address 5: the constant X_OFFSET (R27). -/
def xoffReg : Word := BitVec.ofNat 16 Config.xOffset

/-- VERSION, address 6: the constant 1, command set MQC-CMD v1 (R27). -/
def versionReg : Word := 0x0001#16

/-- `reg_rdata` for `reg_addr` (R24–R28); address 7 reads 0. -/
def regRead (s : State) (addr : BitVec 3) : Word :=
  match addr.toNat with
  | 0 => statusReg s
  | 1 => resultReg s
  | 2 => fcauseReg s
  | 3 => s.fword
  | 4 => geomReg
  | 5 => xoffReg
  | 6 => versionReg
  | _ => 0x0000#16

/-- `cmd_ready` (30_encoding.md R70): 0 while a complete command executes, 1 otherwise, and 1 always once FAULT = 1; 0 while `rst_n` is
low (70_reset_and_hazards.md R250). -/
def cmdReady (rstN : Bool) (s : State) : Bool := rstN && (s.fault || !s.exec)

end Sys2Proof.Machine
end

