-- ==== Sys2Proof/Machine/Parser.lean ====
section
/-!
DEFINITION. The command port and the command parser (30_encoding.md R70–R80, 10_state.md R31), the checks at a header (R79,
60_exceptions.md R222, R223), the outside's other moves (reset, `xp_present`), and which kind of step comes next.
-/

namespace Sys2Proof.Machine

/-! ## The checks at a header -/

/-- The state checks of 60_exceptions.md R222, in its order; they apply to INIT, UPDATE and POWER only. -/
def stateCheck (k : Header) (s : State) : Option Cause :=
  match k with
  | .init => if s.pstate ≠ .uninit then some .doubleInit else if s.xpPresent then none else some .noTransport
  | .update => if s.pstate = .uninit then some .notInitialized else if s.xpPresent then none else some .noTransport
  | .power _ => if s.pstate = .uninit then some .notInitialized else if s.xpPresent then none else some .noTransport
  | .clear => none
  | .pixel => none
  | .line => none
  | .rect => none
  | .fill => none
  | .text _ => none
  | .textc _ => none
  | .getpix => none

/-- The cause of the fault that accepting the header word `h` raises, if it raises one: the first failed check of R79, whose third item is
the state checks (priority: 60_exceptions.md R223). -/
def headerCheck (h : Word) (s : State) : Option Cause :=
  match decodeHeader h with
  | .error e => some (headerCause e)
  | .ok k => stateCheck k s

/-! ## The parser -/

/-- The last word of a command is accepted: the parser returns to IDLE and the command executes (10_state.md R31). -/
def completeCommand (s : State) : State := { s with parse := .idle, nrx := 0, exec := true }

/-- In IDLE a word is a header (R31): it is latched and checked; a command of length 1 is complete at it. -/
def acceptHeader (w : Word) (s : State) : State :=
  let t := { s with hdr := w }
  match headerCheck w s with
  | some c => raiseFault c t
  | none => if cmdLen w = 1 then completeCommand t else { t with parse := .collect, nrx := 0 }

/-- In COLLECT a word is the next operand word (R31): it is latched, unpacked if it is a text word, and counted; the command is complete
when `LEN - 1` of them have come. -/
def acceptOperand (w : Word) (s : State) : State :=
  let k := s.nrx + 1
  let t := { s with opnd := s.opnd.latch k w, txt := latchOperandText s.hdr s.txt k w, nrx := k }
  if cmdLen s.hdr ≤ k + 1 then completeCommand t else t

/-- The block accepts one word on the command port: discarded in the fault state (60_exceptions.md R226), else a header or an operand
word as PARSE says (R31). -/
def acceptWord (w : Word) (s : State) : State :=
  if s.fault then s
  else
    match s.parse with
    | .idle => acceptHeader w s
    | .collect => acceptOperand w s

/-- One move of the outside. -/
def hostEvent (e : HostEvent) (s : State) : State :=
  match e with
  | .word w => acceptWord w s
  | .reset => takeReset s
  | .attach p => { s with xpPresent := p }

/-- The outside's next move; where it makes none, the block waits: in IDLE for a header (70_reset_and_hazards.md R252), in COLLECT for
the rest of the command (R258). -/
def hostMove (s : State) : State :=
  match s.host with
  | [] => s
  | e :: rest => hostEvent e { s with host := rest }

/-! ## What a step does -/

/-- The kinds of step. -/
inductive Phase where
  /-- No command executes: the outside moves. -/
  | host
  /-- The engine executes this command. -/
  | engine (i : Instr)
  /-- The latches hold a header that R79 rejects; no run reaches this, since such a header faults when it is accepted. -/
  | reject (c : Cause)
  deriving DecidableEq, Repr

/-- The kind of the next step: the engine runs while EXEC = 1 and FAULT = 0, and then no word is accepted (30_encoding.md R70); once
FAULT = 1 no command executes (60_exceptions.md R226). -/
def nextPhase (s : State) : Phase :=
  if cmdReady true s then .host
  else
    match fetch s with
    | .error e => .reject (headerCause e)
    | .ok i => .engine i

/-! ## Placing a command in the latches -/

/-- The latches after operand words `k+1, k+2, …` of the command with header word `h`. -/
def latchWords (h : Word) : Nat → List Word → Opnd → List Byte → Opnd × List Byte
  | _, [], o, t => (o, t)
  | k, w :: ws, o, t => latchWords h (k + 1) ws (o.latch (k + 1) w) (latchOperandText h t (k + 1) w)

/-- The state in which the parser has just accepted the last word of the command at the front of `ws`: its header and operand words
latched, and EXEC set. No check of the header is made here. -/
def loadCommand (ws : List Word) (s : State) : State :=
  let h := ws.headD 0#16
  let l := latchWords h 0 ((ws.drop 1).take (cmdLen h - 1)) s.opnd s.txt
  { s with hdr := h, opnd := l.1, txt := l.2, parse := .idle, nrx := 0, exec := true, fault := false }

end Sys2Proof.Machine
end

