-- ==== Sys2Proof/Machine/Transport.lean ====
section
/-!
DEFINITION. The transport port: `Transact`, its timeout, and `RunSeq` (43_display_controller.md R180–R186).
-/

namespace Sys2Proof.Machine

/-- The bytes of a transaction in order, the control byte first (R180). -/
def Frame.bytes (f : Frame) : List Byte := f.ctrl :: f.payload

/-- `CmdTxn(opc, params)`: a command transaction, control byte 0x00 (R184). -/
def cmdTxn (opc : Byte) (params : List Byte) : Frame := { ctrl := 0x00#8, payload := opc :: params }

/-- `DataTxn()`: a data transaction, control byte 0x40 (R185). -/
def dataTxn (bytes : List Byte) : Frame := { ctrl := 0x40#8, payload := bytes }

/-- What ends the next transaction: the first event still to come, or, where the state holds none, a free value (U13). -/
def nextEvent (s : State) : XpEvent :=
  match s.transport with
  | e :: _ => e
  | [] => Config.transportEvent s.bus.length

/-- How an event ends the open transaction. An answer by cycle T_XFER is taken; with none by then the block answers TIMEOUT, and a later
answer is ignored (R181). -/
def eventEnd (e : XpEvent) : TxnEnd :=
  match e.kind with
  | .answer cycle err =>
    if cycle ≤ Config.tXfer then .answered (if err then .error else .ok) else .answered .timeout
  | .silent => .answered .timeout
  | .reset => .abandoned

/-- The timeout counter at the end of the open transaction: it counts to T_XFER and no further (R181). -/
def eventCount (e : XpEvent) (count : Nat) : Nat :=
  match e.kind with
  | .answer cycle _ => min cycle Config.tXfer
  | .silent => Config.tXfer
  | .reset => count

/-- A transaction is opened: it is in flight, no byte has moved, the timeout counter is 0 (R33, R180). -/
def openTxn (f : Frame) (s : State) : State :=
  { s with inFlight := some { frame := f, moved := 0, count := 0 } }

/-- The in-flight transaction when event `e` ends it: bytes have moved, cycles are counted. -/
def runTxn (e : XpEvent) (s : State) : State :=
  { s with
    transport := s.transport.tail
    inFlight := s.inFlight.map fun o =>
      { o with moved := min e.moved o.frame.bytes.length, count := eventCount e o.count } }

/-- The in-flight transaction is over: the port has seen it, and none is in flight. -/
def closeTxn (fin : TxnEnd) (s : State) : State :=
  match s.inFlight with
  | none => s
  | some o =>
    { s with
      inFlight := none
      bus := s.bus ++ [{ addr := Config.busAddr, frame := o.frame, moved := o.moved, fin := fin }] }

/-- The record of transaction `f` when event `e` ended it. -/
def txnRecord (f : Frame) (e : XpEvent) : Txn :=
  { addr := Config.busAddr, frame := f, moved := min e.moved f.bytes.length, fin := eventEnd e }

/-- `Transact(ctrl, bytes)` (R180, R181): one transaction, opened, ended by the next event, and closed; with how it ended. -/
def transact (f : Frame) (s : State) : TxnEnd × State :=
  let e := nextEvent s
  (eventEnd e, closeTxn (eventEnd e) (runTxn e (openTxn f s)))

/-- `RunSeq(list)` (R186): the transactions in order, each after the one before it is answered OK; it stops at the first that is not, and
sends none of the rest. A reset in one of them ends it too (70_reset_and_hazards.md R251). -/
def runSeq : List Frame → State → TxnEnd × State
  | [], s => (.answered .ok, s)
  | f :: fs, s =>
    match (transact f s).1 with
    | .answered .ok => runSeq fs (transact f s).2
    | .answered .error => (.answered .error, (transact f s).2)
    | .answered .timeout => (.answered .timeout, (transact f s).2)
    | .abandoned => (.abandoned, (transact f s).2)

/-! ## What the port shows of a transaction (R180, R181) -/

/-- One byte on the transport port, with its flags `xp_first` and `xp_last`. -/
structure Beat where
  data  : Byte
  first : Bool
  last  : Bool
  deriving DecidableEq, Repr

/-- All bytes of a transaction with their flags: the first byte is the control byte, the last one is flagged last, and the control byte
carries both flags if the payload is empty. -/
def Frame.beats (f : Frame) : List Beat :=
  f.bytes.zipIdx.map fun p => { data := p.1, first := decide (p.2 = 0), last := decide (p.2 + 1 = f.bytes.length) }

/-- The bytes that moved on the port before the transaction ended: once it has ended the block sends no more of it. -/
def Txn.beats (t : Txn) : List Beat := t.frame.beats.take t.moved

/-- `xp_abort` is pulsed for this transaction: exactly when the block gave up on it (R181). -/
def Txn.xpAbort (t : Txn) : Bool := decide (t.fin = .answered .timeout)

/-- The "address+write" byte the transport puts before the block's bytes: `{BUS_ADDR, 0}` (R182; the write bit is from general knowledge
there, 93_implementation_defined.md G4). The block itself drives only `xp_addr`. -/
def Txn.addressByte (t : Txn) : Byte := t.addr ++ 0#1

/-- `xp_valid`: a byte of the in-flight transaction is offered; 0 while `rst_n` is low (R180, 70_reset_and_hazards.md R250). -/
def xpValid (rstN : Bool) (s : State) : Bool :=
  rstN && match s.inFlight with
    | some o => decide (o.moved < o.frame.bytes.length)
    | none => false

end Sys2Proof.Machine
end

