-- ==== Sys2Proof/Machine/Sequencer.lean ====
section
/-!
DEFINITION. The display protocol sequencer: INIT, UPDATE and POWER (43_display_controller.md R187–R199).

The preconditions of R190, R193 and R196 are checked when the header is accepted (60_exceptions.md R222); each of the three commands is one
word long, so nothing lies between its header and its execution. A meaning repeats the check, so that it is right in every state.
-/

namespace Sys2Proof.Machine

/-- The values of R183's table: the instantiation of PANEL_OPC that the spec's vectors use, from general knowledge there (G1). The machine
takes `Config.panelOpc`, of which nothing is known. -/
def ssd1306Opc : PanelOpc where
  displayOff      := 0xAE#8
  displayOn       := 0xAF#8
  clkDiv          := 0xD5#8
  mux             := 0xA8#8
  offset          := 0xD3#8
  startLine       := 0x40#8
  chargePump      := 0x8D#8
  prmChargePumpOn := 0x14#8
  addrMode        := 0x20#8
  prmAddrHoriz    := 0x00#8
  segRemapInv     := 0xA1#8
  comScanInv      := 0xC8#8
  comPins         := 0xDA#8
  contrast        := 0x81#8
  precharge       := 0xD9#8
  vcomh           := 0xDB#8
  resume          := 0xA4#8
  normal          := 0xA6#8
  colAddr         := 0x21#8
  pageAddr        := 0x22#8

/-- INIT_SEQ: the sixteen command transactions, in this order (R187). -/
def initSeq (p : PanelOpc) (q : PanelParams) : List Frame :=
  [ cmdTxn p.displayOff [],
    cmdTxn p.clkDiv [q.clkDiv],
    cmdTxn p.mux [BitVec.ofNat 8 (Config.height - 1)],
    cmdTxn p.offset [0x00#8],
    cmdTxn (p.startLine ||| 0x00#8) [],
    cmdTxn p.chargePump [p.prmChargePumpOn],
    cmdTxn p.addrMode [p.prmAddrHoriz],
    cmdTxn p.segRemapInv [],
    cmdTxn p.comScanInv [],
    cmdTxn p.comPins [q.comPins],
    cmdTxn p.contrast [q.contrast],
    cmdTxn p.precharge [q.precharge],
    cmdTxn p.vcomh [q.vcomh],
    cmdTxn p.resume [],
    cmdTxn p.normal [],
    cmdTxn p.displayOn [] ]

/-- WINDOW_SEQ: the column window `[X_OFFSET, X_OFFSET+W-1]`, then the page window `[0, PAGES-1]` (R188). -/
def windowSeq (p : PanelOpc) : List Frame :=
  [ cmdTxn p.colAddr [BitVec.ofNat 8 Config.xOffset, BitVec.ofNat 8 (Config.xOffset + Config.width - 1)],
    cmdTxn p.pageAddr [0x00#8, BitVec.ofNat 8 (Config.pages - 1)] ]

/-- UPDATE's three transactions: the window, then the framebuffer in one data transaction (R193). -/
def updateSeq (p : PanelOpc) (bytes : List Byte) : List Frame := windowSeq p ++ [dataTxn bytes]

/-- POWER's one transaction: display-on or display-off (R196). -/
def powerSeq (p : PanelOpc) (on : Bool) : List Frame := [cmdTxn (if on then p.displayOn else p.displayOff) []]

/-- The end of a bus-facing command whose sequence ended with answer `a`: XSTAT takes it (10_state.md R36). -/
def endBus (a : Answer) (s : State) : State := finish { s with xstat := a }

/-- What INIT writes when its sequence ended with answer `a` (R190). -/
def initResult (a : Answer) (s : State) : State :=
  endBus a { s with pstate := if a = .ok then .on else s.pstate, initFailed := decide (a ≠ .ok) }

/-- What POWER writes when its transaction ended with answer `a` (R196). -/
def powerResult (on : Bool) (a : Answer) (s : State) : State :=
  endBus a { s with pstate := if a = .ok then (if on then .on else .off) else s.pstate }

/-- A command's sequence is run, then its result written; a reset in one of its transactions ends it in the reset state
(70_reset_and_hazards.md R251). -/
def runBus (fs : List Frame) (result : Answer → State → State) (s : State) : State :=
  match (runSeq fs s).1 with
  | .answered a => result a (runSeq fs s).2
  | .abandoned => takeReset (runSeq fs s).2

/-- INIT (R190). -/
def execInit (s : State) : Host.Outcome State Fault Refusal :=
  match stateCheck .init s with
  | some c => .next (raiseFault c s)
  | none => .next (runBus (initSeq Config.panelOpc Config.panelParams) initResult s)

/-- UPDATE (R193). The data transaction carries the framebuffer as it stands when the command starts (70_reset_and_hazards.md R261). -/
def execUpdate (s : State) : Host.Outcome State Fault Refusal :=
  match stateCheck .update s with
  | some c => .next (raiseFault c s)
  | none =>
    match s.fb.readRange 0 Config.fbBytes with
    | .ok bytes => .next (runBus (updateSeq Config.panelOpc bytes) endBus s)
    | .error a => .fault (.framebufferHole a)

/-- POWER on|off (R196). -/
def execPower (on : Bool) (s : State) : Host.Outcome State Fault Refusal :=
  match stateCheck (.power on) s with
  | some c => .next (raiseFault c s)
  | none => .next (runBus (powerSeq Config.panelOpc on) (powerResult on) s)

end Sys2Proof.Machine
end

