-- ==== Sys2Proof/Machine/Text.lean ====
section
/-!
DEFINITION. The glyph blitter and text layout (42_text.md R150–R157). Each is the list of the points it calls `SetPixel` at, in order.
-/

namespace Sys2Proof.Machine

/-- Bit `r` of `Glyph(g, c)`, the LUT byte at address `5*g + c` (R151, R152). -/
def glyphBit (rom : Memory) (g c r : Nat) : Bool :=
  match rom.read (Config.glyphW * g + c) with
  | some col => col.getLsbD r
  | none => false

/-- The points of column `c` of `BlitGlyph(g, cx, cy)`: a point for each set bit of rows 0..6, top to bottom; bit 7 is never read
(R152, R153). -/
def glyphColumn (rom : Memory) (g : Nat) (cx cy : Int) (c : Nat) : List (Int × Int) :=
  ((List.range Config.glyphH).filter fun (r : Nat) => glyphBit rom g c r).map fun (r : Nat) => (cx + (c : Int), cy + (r : Int))

/-- The points of `BlitGlyph(g, cx, cy)`, columns left to right (R153). -/
def glyphPoints (rom : Memory) (g : Nat) (cx cy : Int) : List (Int × Int) :=
  (List.range Config.glyphW).flatMap (glyphColumn rom g cx cy)

/-- The points of one character's cell: its glyph for a code in [32, 126], nothing for any other code (R154). -/
def charPoints (rom : Memory) (code : Byte) (charX y : Int) : List (Int × Int) :=
  if Config.glyphFirst ≤ code.toNat ∧ code.toNat ≤ Config.glyphLast then
    glyphPoints rom (code.toNat - Config.glyphFirst) charX y
  else []

/-- The points of `DrawText(x, y, s)` from character `i` on (R154): the cell of a character comes from its index, drawn or not; the loop
stops at the first cell that starts at or beyond the right edge, before the code is looked at. -/
def textPointsFrom (rom : Memory) (x y : Int) : Nat → List Byte → List (Int × Int)
  | _, [] => []
  | i, code :: rest =>
    let charX := x + (i : Int) * Config.cellW
    if charX ≥ Config.width then []
    else charPoints rom code charX y ++ textPointsFrom rom x y (i + 1) rest

/-- The points of `DrawText(x, y, s)` (R154). -/
def textPoints (rom : Memory) (x y : Int) (t : List Byte) : List (Int × Int) := textPointsFrom rom x y 0 t

/-- TEXT x, y, "t" (R155). -/
def execText (x y : Word) (t : List Byte) (s : State) : Host.Outcome State Fault Refusal :=
  .next (draw (textPoints s.glyphRom (sext16 x) (sext16 y) t) s)

/-- The x of `Centre(line, L)`: `tdiv(W - L*6, 2)`, clamped to 0 from below (R156). -/
def centreX (len : Nat) : Int :=
  let x := Int.tdiv ((Config.width : Int) - (len : Int) * Config.cellW) 2
  if x < 0 then 0 else x

/-- The y of `Centre(line, L)`: `line * 10`, exact (R156). -/
def centreY (line : Int) : Int := line * Config.lineH

/-- TEXTC line, "t" (R157). -/
def execTextc (line : Word) (t : List Byte) (s : State) : Host.Outcome State Fault Refusal :=
  .next (draw (textPoints s.glyphRom (centreX t.length) (centreY (sext16 line)) t) s)

end Sys2Proof.Machine
end

