-- ==== Sys2Proof/Machine/Dispatch.lean ====
section
/-!
DEFINITION. One arm per command.
-/

namespace Sys2Proof.Machine

def exec (i : Instr) (s : State) : Host.Outcome State Fault Refusal :=
  match i with
  | .clear => Sys2Proof.Machine.execClear s
  | .pixel x y => Sys2Proof.Machine.execPixel x y s
  | .line x0 y0 x1 y1 => Sys2Proof.Machine.execLine x0 y0 x1 y1 s
  | .rect x y w h => Sys2Proof.Machine.execRect x y w h s
  | .fill x y w h => Sys2Proof.Machine.execFill x y w h s
  | .text x y t => Sys2Proof.Machine.execText x y t s
  | .textc l t => Sys2Proof.Machine.execTextc l t s
  | .getpix x y => Sys2Proof.Machine.execGetpix x y s
  | .init => Sys2Proof.Machine.execInit s
  | .update => Sys2Proof.Machine.execUpdate s
  | .power on => Sys2Proof.Machine.execPower on s

end Sys2Proof.Machine
end

