-- ==== Sys2Proof/Machine/Step.lean ====
section
/-!
DEFINITION. One step of the block (00_scope.md R12): the engine executes the complete command in the latches, or the outside makes one move
(a word is accepted, a reset, a change of `xp_present`), or the block waits.
-/

namespace Sys2Proof.Machine

/-- One step. -/
def step (s : State) : Host.Outcome State Fault Refusal :=
  match nextPhase s with
  | .host => .next (hostMove s)
  | .engine i => exec i s
  | .reject c => .next (raiseFault c s)

/-- `s` with the instruction whose bits are `w` in the latches the engine executes from, complete: the very next step runs it. -/
def State.withFetchWord (s : State) (nbits w : Nat) : State := loadCommand (tableWords nbits w) s

end Sys2Proof.Machine
end

