-- ==== Sys2Proof/Machine/Assembler.lean ====
section
/-!
DEFINITION. The assembler syntax (30_encoding.md R81, R82): one line of text to a command and back. The words of a line are `encode` of its
command. Text is a list of characters. `exec` and `step` use none of this.
-/

namespace Sys2Proof.Machine

/-! ## Words of a line -/

/-- A token of a line. -/
inductive Token where
  | word (cs : List Char)
  | str (bytes : List Byte)
  | comma
  deriving DecidableEq, Repr

/-- Where the lexer stands: between tokens, in a word, in a string, or in one of a string's escapes. What is read so far is kept in
reverse order. -/
inductive LexMode where
  | gap
  | word (rev : List Char)
  | str (rev : List Byte)
  | escape (rev : List Byte)
  | hexHigh (rev : List Byte)
  | hexLow (rev : List Byte) (high : Nat)
  deriving DecidableEq, Repr

/-- A blank between tokens. -/
def isBlank (c : Char) : Bool := c == ' ' || c == '\t'

/-- Printable ASCII: codes 32 to 126. -/
def isPrintable (n : Nat) : Bool := decide (32 ≤ n) && decide (n ≤ 126)

/-- The value of a hexadecimal digit. -/
def hexDigit (c : Char) : Option Nat :=
  let n := c.toNat
  if 48 ≤ n ∧ n ≤ 57 then some (n - 48)
  else if 97 ≤ n ∧ n ≤ 102 then some (n - 87)
  else if 65 ≤ n ∧ n ≤ 70 then some (n - 55)
  else none

/-- The value of a decimal digit. -/
def decDigit (c : Char) : Option Nat :=
  if 48 ≤ c.toNat ∧ c.toNat ≤ 57 then some (c.toNat - 48) else none

/-- The tokens of a line; a semicolon outside a string starts a comment. No tokens for a line that is none (an unfinished string, a
character a string may not hold). -/
def lexLine : LexMode → List Char → Option (List Token)
  | .gap, [] => some []
  | .word r, [] => some [.word r.reverse]
  | .str _, [] => none
  | .escape _, [] => none
  | .hexHigh _, [] => none
  | .hexLow _ _, [] => none
  | .gap, c :: cs =>
    if c = ';' then some []
    else if isBlank c then lexLine .gap cs
    else if c = ',' then (lexLine .gap cs).map (.comma :: ·)
    else if c = '"' then lexLine (.str []) cs
    else lexLine (.word [c]) cs
  | .word r, c :: cs =>
    if c = ';' then some [.word r.reverse]
    else if isBlank c then (lexLine .gap cs).map (.word r.reverse :: ·)
    else if c = ',' then (lexLine .gap cs).map fun ts => .word r.reverse :: .comma :: ts
    else if c = '"' then (lexLine (.str []) cs).map (.word r.reverse :: ·)
    else lexLine (.word (c :: r)) cs
  | .str r, c :: cs =>
    if c = '"' then (lexLine .gap cs).map (.str r.reverse :: ·)
    else if c = '\\' then lexLine (.escape r) cs
    else if isPrintable c.toNat then lexLine (.str (BitVec.ofNat 8 c.toNat :: r)) cs
    else none
  | .escape r, c :: cs =>
    if c = '"' ∨ c = '\\' then lexLine (.str (BitVec.ofNat 8 c.toNat :: r)) cs
    else if c = 'x' then lexLine (.hexHigh r) cs
    else none
  | .hexHigh r, c :: cs =>
    match hexDigit c with
    | some d => lexLine (.hexLow r d) cs
    | none => none
  | .hexLow r high, c :: cs =>
    match hexDigit c with
    | some d => lexLine (.str (BitVec.ofNat 8 (16 * high + d) :: r)) cs
    | none => none

/-! ## Integers -/

/-- The value of digits in a base, `acc` so far; no value if a character is no digit. -/
def digitsValue (digit : Char → Option Nat) (base : Nat) : Nat → List Char → Option Nat
  | acc, [] => some acc
  | acc, c :: cs =>
    match digit c with
    | some d => digitsValue digit base (base * acc + d) cs
    | none => none

/-- A non-empty run of decimal digits. -/
def decimalValue (cs : List Char) : Option Nat := if cs.isEmpty then none else digitsValue decDigit 10 0 cs

/-- The 16-bit pattern of an integer in -32768..32767. -/
def signedWord (v : Int) : Option Word :=
  if -32768 ≤ v ∧ v ≤ 32767 then some (BitVec.ofInt 16 v) else none

/-- An integer operand (R81): decimal, optionally signed, or `0x` hexadecimal taken as the 16-bit pattern. DESIGN CHOICE (log entry 18): any number of
digits but none, leading zeros among them, so long as the value is in range. -/
def parseInteger : List Char → Option Word
  | '0' :: 'x' :: cs =>
    match if cs.isEmpty then none else digitsValue hexDigit 16 0 cs with
    | some v => if v ≤ 0xFFFF then some (BitVec.ofNat 16 v) else none
    | none => none
  | '-' :: cs => (decimalValue cs).bind fun (v : Nat) => signedWord (-(v : Int))
  | '+' :: cs => (decimalValue cs).bind fun (v : Nat) => signedWord (v : Int)
  | cs => (decimalValue cs).bind fun (v : Nat) => signedWord (v : Int)

/-! ## Commands -/

/-- A line's operation: a mnemonic, or the source's API name for it (R82). -/
inductive AsmOp where
  | clear | pixel | line | rect | fill | text | textc | getpix | init | update | power
  | setPower (on : Bool)
  deriving DecidableEq, Repr

/-- The names of the operations (R81, R82; 00_scope.md R18). -/
def asmNames : List (String × AsmOp) :=
  [("CLEAR", .clear), ("PIXEL", .pixel), ("LINE", .line), ("RECT", .rect), ("FILL", .fill), ("TEXT", .text),
   ("TEXTC", .textc), ("GETPIX", .getpix), ("INIT", .init), ("UPDATE", .update), ("POWER", .power)] ++
  [("clear", .clear), ("drawPixel", .pixel), ("setPixel", .pixel), ("getPixel", .getpix), ("drawLine", .line),
   ("drawRect", .rect), ("drawFillRect", .fill), ("drawText", .text), ("drawTextCentered", .textc), ("init", .init),
   ("update", .update), ("setPower(true)", .setPower true), ("setPower(false)", .setPower false)]

/-- The operation of a name. -/
def asmOp (name : List Char) : Option AsmOp :=
  (asmNames.find? fun p => p.1.toList == name).map (·.2)

/-- The state of POWER's operand. -/
def parseOnOff (cs : List Char) : Option Bool :=
  if cs = ['o', 'n'] then some true else if cs = ['o', 'f', 'f'] then some false else none

/-- A text of at most 255 bytes. -/
def legalText (t : List Byte) : Option (List Byte) := if t.length ≤ Config.txtMax then some t else none

/-- The integers of an operand list: words with a comma between each two. -/
def parseIntegers : List Token → Option (List Word)
  | [.word a] => (parseInteger a).map ([·])
  | .word a :: .comma :: rest =>
    match parseInteger a, parseIntegers rest with
    | some v, some vs => some (v :: vs)
    | _, _ => none
  | _ => none

/-- The command of an operation and its operand tokens (R81). -/
def asmCommand (op : AsmOp) (args : List Token) : Option Instr :=
  match op with
  | .clear => if args = [] then some .clear else none
  | .init => if args = [] then some .init else none
  | .update => if args = [] then some .update else none
  | .setPower on => if args = [] then some (.power on) else none
  | .power =>
    match args with
    | [.word w] => (parseOnOff w).map .power
    | _ => none
  | .pixel =>
    match parseIntegers args with
    | some [x, y] => some (.pixel x y)
    | _ => none
  | .getpix =>
    match parseIntegers args with
    | some [x, y] => some (.getpix x y)
    | _ => none
  | .line =>
    match parseIntegers args with
    | some [x0, y0, x1, y1] => some (.line x0 y0 x1 y1)
    | _ => none
  | .rect =>
    match parseIntegers args with
    | some [x, y, w, h] => some (.rect x y w h)
    | _ => none
  | .fill =>
    match parseIntegers args with
    | some [x, y, w, h] => some (.fill x y w h)
    | _ => none
  | .text =>
    match args with
    | [.word a, .comma, .word b, .comma, .str t] =>
      match parseInteger a, parseInteger b, legalText t with
      | some x, some y, some t => some (.text x y t)
      | _, _, _ => none
    | _ => none
  | .textc =>
    match args with
    | [.word a, .comma, .str t] =>
      match parseInteger a, legalText t with
      | some l, some t => some (.textc l t)
      | _, _ => none
    | _ => none

/-- One line of assembler text (R81): a command, or nothing (`some none`) for a blank line or a comment; `none` where it is no line of the
syntax. -/
def parseLine (cs : List Char) : Option (Option Instr) :=
  match lexLine .gap cs with
  | some [] => some none
  | some (.word name :: args) =>
    match asmOp name with
    | some op => (asmCommand op args).map some
    | none => none
  | _ => none

/-- The words an assembler emits for one line (R81). -/
def assembleLine (cs : List Char) : Option (List Word) :=
  (parseLine cs).map fun i => match i with
    | some i => encode i
    | none => []

/-! ## The disassembler -/

/-- A hexadecimal digit's character. -/
def hexChar (n : Nat) : Char := Char.ofNat (if n < 10 then 48 + n else 55 + n)

/-- A string byte: itself if printable, else its escape. -/
def showByte (b : Byte) : List Char :=
  if b = 0x22#8 then ['\\', '"']
  else if b = 0x5C#8 then ['\\', '\\']
  else if isPrintable b.toNat then [Char.ofNat b.toNat]
  else ['\\', 'x', hexChar (b.toNat / 16), hexChar (b.toNat % 16)]

/-- A string in double quotes. -/
def showText (t : List Byte) : List Char := '"' :: t.flatMap showByte ++ ['"']

/-- An operand word as a signed decimal. -/
def showWord (w : Word) : List Char :=
  let v := sext16 w
  if v < 0 then '-' :: Nat.toDigits 10 v.natAbs else Nat.toDigits 10 v.natAbs

/-- Operands with a comma and a blank between each two. -/
def showOperands (ops : List (List Char)) : List Char := List.intercalate [',', ' '] ops

/-- A command's line of text (R81). -/
def disassemble : Instr → List Char
  | .clear => "CLEAR".toList
  | .pixel x y => "PIXEL ".toList ++ showOperands [showWord x, showWord y]
  | .line x0 y0 x1 y1 => "LINE ".toList ++ showOperands [showWord x0, showWord y0, showWord x1, showWord y1]
  | .rect x y w h => "RECT ".toList ++ showOperands [showWord x, showWord y, showWord w, showWord h]
  | .fill x y w h => "FILL ".toList ++ showOperands [showWord x, showWord y, showWord w, showWord h]
  | .text x y t => "TEXT ".toList ++ showOperands [showWord x, showWord y, showText t]
  | .textc l t => "TEXTC ".toList ++ showOperands [showWord l, showText t]
  | .getpix x y => "GETPIX ".toList ++ showOperands [showWord x, showWord y]
  | .init => "INIT".toList
  | .update => "UPDATE".toList
  | .power on => if on then "POWER on".toList else "POWER off".toList

end Sys2Proof.Machine
end

