-- ==== Sys2Proof/Safety.lean ====
section
/-!
DEFINITION. The invariant of the block, and the parts of a state that a command leaves alone, in the terms the statements use.
-/

namespace Sys2Proof.Machine

/-- The invariant: it holds right after reset, and every step keeps it. -/
structure BlockInv (s : State) : Prop where
  /-- FB is its 360 bytes (10_state.md R21: "storage size is always `W*pages`"). -/
  framebuffer : Memory.wf Config.fbBytes s.fb = true
  /-- GLYPH_ROM is its 475 bytes (R22). -/
  lut : Memory.wf Config.glyphRomBytes s.glyphRom = true
  /-- TXT is its 255 bytes (R20). -/
  txtSize : s.txt.length = Config.txtMax
  /-- Between steps no transaction is in flight: the model's step is a whole command (00_scope.md R12, 10_state.md R33; DESIGN CHOICE, log entry
  16). -/
  noneInFlight : s.inFlight = none
  /-- In IDLE no operand word is counted: after a reset by R31, after a command by DESIGN CHOICE (log entry 13), since R31 does not say what NRX
  holds then. -/
  idle : s.parse = .idle → s.nrx = 0
  /-- In COLLECT the header is legal, no command executes, and operand words are still missing (R31). -/
  collecting : s.parse = .collect →
    s.exec = false ∧ (∃ k, decodeHeader s.hdr = .ok k) ∧ s.nrx + 1 < cmdLen s.hdr
  /-- A command that executes has passed every check at its header (30_encoding.md R79, 60_exceptions.md R222). -/
  executing : s.exec = true → headerCheck s.hdr s = none ∧ s.parse = .idle
  /-- In the fault state a cause is recorded, the parser is idle and no command executes (60_exceptions.md R225). -/
  faulted : s.fault = true → s.fcause ≠ .none ∧ s.parse = .idle ∧ s.exec = false
  /-- With no fault there is no record of one (10_state.md R26). -/
  unfaulted : s.fault = false → s.fcause = .none ∧ s.fword = 0x0000#16

/-- PSTATE, INIT_FAILED, XSTAT and PIX are the same in both states. -/
def SameFlags (s t : State) : Prop :=
  t.pstate = s.pstate ∧ t.initFailed = s.initFailed ∧ t.xstat = s.xstat ∧ t.pix = s.pix

/-- The fault record FAULT, FCAUSE, FWORD is the same in both states. -/
def SameFaultRecord (s t : State) : Prop :=
  t.fault = s.fault ∧ t.fcause = s.fcause ∧ t.fword = s.fword

/-- The parser's PARSE, NRX, HDR, OPND and TXT are the same in both states. -/
def SameParser (s t : State) : Prop :=
  t.parse = s.parse ∧ t.nrx = s.nrx ∧ t.hdr = s.hdr ∧ t.opnd = s.opnd ∧ t.txt = s.txt

/-- The ports are the same in both states: no word taken from the host, no event taken from the transport, no transaction issued, none in
flight that was not, no reset. -/
def SamePorts (s t : State) : Prop :=
  t.xpPresent = s.xpPresent ∧ t.host = s.host ∧ t.transport = s.transport ∧ t.bus = s.bus ∧ t.inFlight = s.inFlight
    ∧ t.resets = s.resets

/-- All of the state but the framebuffer and PIX is as an ended drawing command leaves it: the LUT, the flags but PIX, the fault record,
the parser and the ports are the same, EXEC is 0. Left open: FB, PIX, and the working registers, whose values between commands are
unspecified (R32), with the counter that indexes them. -/
def EndedQuietly (s t : State) : Prop :=
  t.glyphRom = s.glyphRom ∧ t.pstate = s.pstate ∧ t.initFailed = s.initFailed ∧ t.xstat = s.xstat
    ∧ SameFaultRecord s t ∧ SameParser s t ∧ SamePorts s t ∧ t.exec = false

/-- The two framebuffers hold the same byte, or the same absence of one, at every address. -/
def SameFramebuffer (s t : State) : Prop := ∀ a, t.fb.read a = s.fb.read a

/-- Pixel `(px, py)` is lit in the framebuffer `m`. -/
def Lit (m : Memory) (px py : Int) : Prop := getPixel m px py = some true

/-- From framebuffer `m` to `m'` exactly the in-bounds pixels of the set `P` were set: such a pixel is lit after if and only if it was lit
before or is in `P`; a byte that holds no in-bounds pixel of `P` is the same; and no address gains or loses its byte. -/
def SetsExactly (P : Int → Int → Prop) (m m' : Memory) : Prop :=
  (∀ px py, inBounds px py = true → (Lit m' px py ↔ Lit m px py ∨ P px py))
    ∧ (∀ a, (∀ px py, inBounds px py = true → P px py → pixelAddr px py ≠ a) → m'.read a = m.read a)
    ∧ ∀ a, (m'.read a).isSome = (m.read a).isSome

/-- A number lies between two others, in either order, ends included (41_drawing.md R122 item 7). -/
def Between (a b v : Int) : Prop := min a b ≤ v ∧ v ≤ max a b

/-- The pixels of the rectangle outline in closed form (41_drawing.md R126). -/
def OutlinePixels (x y w h px py : Int) : Prop :=
  (Between x (x + w) px ∧ (py = y ∨ py = y + h)) ∨ (Between y (y + h) py ∧ (px = x ∨ px = x + w))

/-- The pixels of the filled rectangle (41_drawing.md R128): half open on the right and below. -/
def BoxPixels (x y w h px py : Int) : Prop := (x ≤ px ∧ px < x + w) ∧ y ≤ py ∧ py < y + h

/-- The pixels of a text at `(x, y)`: character `i`, of a code in [32, 126], in a cell that starts at `x + 6*i`, left of column 72; column
`c` of its glyph, in which bit `r` of the LUT byte `5*(code - 32) + c` is set (42_text.md R151–R154). -/
def TextPixels (rom : Memory) (x y : Int) (t : List Byte) (px py : Int) : Prop :=
  ∃ (i : Nat) (code : Byte) (c r : Nat) (col : Byte),
    t[i]? = some code ∧ x + 6 * (i : Int) < 72 ∧ 32 ≤ code.toNat ∧ code.toNat ≤ 126 ∧ c < 5 ∧ r < 7
      ∧ rom.read (5 * (code.toNat - 32) + c) = some col ∧ col.getLsbD r = true
      ∧ px = x + 6 * (i : Int) + (c : Int) ∧ py = y + (r : Int)

/-- The mask of rows `max(y, 8p) .. min(y+h, 8p+8) - 1` of page `p`, as R128's byte-wise form builds it. -/
def pageMask (y h : Int) (p : Nat) : Byte :=
  (intRange (max y (8 * (p : Int))) (min (y + h) (8 * (p : Int) + 8))).foldl
    (fun acc j => acc ||| (1#8 <<< (j - 8 * (p : Int)).toNat)) 0x00#8

/-- Every one of these events ends its transaction with the answer OK. -/
def AllOk (es : List XpEvent) : Prop := ∀ e ∈ es, eventEnd e = .answered .ok

/-- The command carries a text of odd length, so that its last word holds a padding byte (30_encoding.md R76). -/
def hasPadding : Instr → Bool
  | .text _ _ t => t.length % 2 == 1
  | .textc _ t => t.length % 2 == 1
  | .clear => false
  | .pixel _ _ => false
  | .line _ _ _ _ => false
  | .rect _ _ _ _ => false
  | .fill _ _ _ _ => false
  | .getpix _ _ => false
  | .init => false
  | .update => false
  | .power _ => false

/-- The command is one of the display protocol sequencer's: INIT, UPDATE, POWER. -/
def isBusCommand : Instr → Bool
  | .init => true
  | .update => true
  | .power _ => true
  | .clear => false
  | .pixel _ _ => false
  | .line _ _ _ _ => false
  | .rect _ _ _ _ => false
  | .fill _ _ _ _ => false
  | .text _ _ _ => false
  | .textc _ _ => false
  | .getpix _ _ => false

/-- What a bus-facing command that was not faulted leaves alone (10_state.md R38): the framebuffer, the LUT, PIX, the fault record, the parser and the host's
moves are the same; no reset came, no transaction is left in flight, and EXEC is 0. -/
def BusEnded (s t : State) : Prop :=
  t.fb = s.fb ∧ t.glyphRom = s.glyphRom ∧ t.pix = s.pix ∧ SameFaultRecord s t ∧ SameParser s t
    ∧ t.xpPresent = s.xpPresent ∧ t.host = s.host ∧ t.resets = s.resets ∧ t.inFlight = none ∧ t.exec = false

end Sys2Proof.Machine
end

