-- ==== Sys2Proof/Certificates/Slice0/Obligations.lean ====
section
/-!
DEFINITION. The statements for the provers. Each docstring names the rules of spec/ it formalises.
-/

open Sys2Proof Sys2Proof.Machine

/-! ## Reset and the invariant -/

/-- 10_state.md R39: the value of every piece of state after reset, for the state right after power-up reset and for a reset taken in any
state; the LUT is unchanged. HDR, OPND, TXT and the working registers are unspecified there, and nothing is said of them here; of the framebuffer
only that its 360 bytes are there. A reset that comes while no command executes, in COLLECT and in the fault state too, is taken by the next step
(70_reset_and_hazards.md R250, R251; 60_exceptions.md R227). That it leaves the model's ports and the log of transactions alone is the model's
choice (log entries 5 to 8). -/
def Obligations.ResetPutsEveryRegisterAtItsResetValue : Prop :=
  (∀ u : State, (takeReset u).glyphRom = u.glyphRom ∧ (takeReset u).xpPresent = u.xpPresent ∧ (takeReset u).host = u.host
    ∧ (takeReset u).transport = u.transport ∧ (takeReset u).bus = u.bus) ∧
  (∀ (s : State) (rest : List HostEvent), s.fault = true ∨ s.exec = false → s.host = .reset :: rest →
    step s = .next (takeReset { s with host := rest })) ∧
  ∀ s : State, (s = State.reset ∨ ∃ u, s = takeReset u) →
    s.pstate = .uninit ∧ s.fault = false ∧ s.fcause = .none ∧ s.fword = 0x0000#16 ∧ s.initFailed = false
      ∧ s.xstat = .ok ∧ s.pix = false ∧ s.parse = .idle ∧ s.nrx = 0 ∧ s.exec = false ∧ busy s = false ∧ s.inFlight = none
      ∧ (∀ a, (s.fb.read a).isSome = true ↔ a < 360)
      ∧ regRead s 4#3 = 0x2848#16 ∧ regRead s 5#3 = 0x001C#16 ∧ regRead s 6#3 = 0x0001#16

/-- The invariant holds right after reset. -/
def Obligations.ResetMeetsTheInvariant : Prop := BlockInv State.reset

/-- From every state that meets the invariant, whether or not a run reaches it, every step leads to one that does. Three clauses of the invariant
are the model's choices, not rules of the spec: NRX = 0 in IDLE after a command (log entry 13; after a reset it is 10_state.md R31), no
transaction in flight between steps (log entry 16), the canonical form of a memory (log entry 9). -/
def Obligations.EveryStepKeepsTheInvariant : Prop :=
  ∀ s t : State, BlockInv s → step s = .next t → BlockInv t

/-- In a state that meets the invariant a step always answers a next state: the model neither faults nor refuses, whatever command is in the
latches and whatever comes from outside (70_reset_and_hazards.md R260, 20_memory.md R54). -/
def Obligations.EveryStepAnswersANextState : Prop :=
  ∀ s : State, BlockInv s → ∃ t, step s = .next t

/-! ## The command port, the parser and the step -/

/-- The engine's step is the execution of the command in the latches, and nothing besides (00_scope.md R12, 10_state.md R31): HDR decodes as a
header of the kind `k`, and the command is the one that `k`, OPND and TXT make. -/
def Obligations.StepExecutesTheLatchedCommand : Prop :=
  ∀ (s : State) (k : Header), s.fault = false → s.exec = true → decodeHeader s.hdr = .ok k →
    step s = exec (k.build s.opnd.op1 s.opnd.op2 s.opnd.op3 s.opnd.op4 s.txt) s

/-- 30_encoding.md R70: `cmd_ready` is 0 exactly while EXEC = 1 and FAULT = 0; while it is 0 no step takes a word from the host; while it is 1 a
step takes the one word the host offers. -/
def Obligations.WordsAreAcceptedOnlyWhenReady : Prop :=
  (∀ s, cmdReady true s = false ↔ s.exec = true ∧ s.fault = false)
    ∧ (∀ s t, cmdReady true s = false → step s = .next t → t.host = s.host)
    ∧ ∀ s w rest, cmdReady true s = true → s.host = .word w :: rest → ∃ t, step s = .next t ∧ t.host = rest

/-- 60_exceptions.md R225: a header word that fails a check takes the fault in the step it is accepted: FAULT, FCAUSE, FWORD, PARSE and EXEC are
written, the header is in HDR, the word is gone from the port, and nothing else changes. -/
def Obligations.AFailedHeaderCheckTakesTheFault : Prop :=
  ∀ (s : State) (w : Word) (rest : List HostEvent) (c : Cause), s.fault = false → s.exec = false → s.parse = .idle →
    s.host = .word w :: rest → headerCheck w s = some c →
    step s = .next { s with
      host := rest, hdr := w, fault := true, fcause := c, fword := w, parse := .idle, exec := false }

/-- 60_exceptions.md R222 (and the order of R223), after the checks 1 and 2 of 30_encoding.md R79: the cause a header word raises, in the order of
priority; and the step that accepts the word raises exactly that fault, or none. -/
def Obligations.HeaderChecksInOrderOfPriority : Prop :=
  ∀ (w : Word) (s : State),
    let opc : BitVec 8 := w.extractLsb' 0 8
    let aux : BitVec 8 := w.extractLsb' 8 8
    let cause : Option Cause :=
      if opc ∉ [0x01#8, 0x02#8, 0x03#8, 0x04#8, 0x05#8, 0x06#8, 0x07#8, 0x08#8, 0x10#8, 0x11#8, 0x12#8] then some .illegalOpcode
      else if (opc ∈ [0x01#8, 0x02#8, 0x03#8, 0x04#8, 0x05#8, 0x08#8, 0x10#8, 0x11#8] ∧ aux ≠ 0x00#8)
          ∨ (opc = 0x12#8 ∧ aux.extractLsb' 1 7 ≠ 0#7) then some .reservedAux
      else if opc = 0x10#8 ∧ s.pstate ≠ .uninit then some .doubleInit
      else if opc ∈ [0x11#8, 0x12#8] ∧ s.pstate = .uninit then some .notInitialized
      else if opc ∈ [0x10#8, 0x11#8, 0x12#8] ∧ s.xpPresent = false then some .noTransport
      else none
    headerCheck w s = cause
      ∧ ∀ rest, s.fault = false → s.exec = false → s.parse = .idle → s.host = .word w :: rest →
          ∃ t, step s = .next t ∧ t.fault = cause.isSome ∧ ∀ c, cause = some c → t.fcause = c ∧ t.fword = w

/-- 60_exceptions.md R221, R223, R224: a step from a state that meets the invariant sets FAULT only by accepting a header word that fails a check;
the cause and the word are recorded, and no byte, flag or transaction of the faulting command happens. -/
def Obligations.EveryFaultIsRaisedAtAHeader : Prop :=
  ∀ s t : State, BlockInv s → s.fault = false → step s = .next t → t.fault = true →
    s.exec = false ∧ s.parse = .idle
      ∧ (∃ w rest, s.host = .word w :: rest ∧ headerCheck w s = some t.fcause ∧ t.fword = w ∧ t.hdr = w ∧ t.host = rest)
      ∧ t.fb = s.fb ∧ SameFlags s t ∧ t.bus = s.bus ∧ t.transport = s.transport

/-- 60_exceptions.md R226 and R227: however many steps are taken in the fault state, as long as no reset comes, FAULT stays, the first fault's
record is never overwritten, no command executes, no transaction is issued, FB and the flags keep their values, words are discarded, BUSY reads 0, `cmd_ready` is 1, and one move
of the outside is used up a step. -/
def Obligations.TheFaultStateLastsUntilReset : Prop :=
  ∀ (n : Nat) (s : State), s.fault = true → HostEvent.reset ∉ s.host →
    ∃ t : State, Host.Core.run core n s = .next t ∧ SameFaultRecord s t ∧ t.fb = s.fb ∧ SameFlags s t ∧ SameParser s t ∧ t.bus = s.bus
      ∧ t.exec = s.exec ∧ t.host = s.host.drop n ∧ busy t = false ∧ cmdReady true t = true

/-- 10_state.md R34 and 60_exceptions.md R227: a step clears FAULT only by a reset. -/
def Obligations.OnlyResetClearsTheFault : Prop :=
  ∀ s t : State, s.fault = true → step s = .next t → t.fault = false →
    ∃ rest, s.host = .reset :: rest ∧ t = takeReset { s with host := rest }

/-- While no command executes, or in the fault state, a change of the input `xp_present` (43_display_controller.md R180) puts the level there and changes nothing
else, and with nothing coming from outside the block waits and changes nothing (70_reset_and_hazards.md R252, R258). The list of the outside's moves is the model's
(log entries 5 and 6). -/
def Obligations.TheAttachInputAndWaiting : Prop :=
  ∀ s : State, s.fault = true ∨ s.exec = false →
    (∀ (p : Bool) (rest : List HostEvent), s.host = .attach p :: rest → step s = .next { s with host := rest, xpPresent := p })
      ∧ (s.host = [] → step s = .next s)

/-- 70_reset_and_hazards.md R258: with a command partly received, and neither a word nor a reset coming, the parser stays in COLLECT with BUSY = 1 for any
number of steps: nothing changes but what the outside does with `xp_present`. -/
def Obligations.APartialCommandWaitsForever : Prop :=
  ∀ (n : Nat) (s : State), s.fault = false → s.exec = false → s.parse = .collect → (∀ e ∈ s.host, ∃ p, e = .attach p) →
    ∃ t : State, Host.Core.run core n s = .next t ∧ t.parse = .collect ∧ busy t = true
      ∧ t = { s with xpPresent := t.xpPresent, host := s.host.drop n }

/-- The parser (10_state.md R31, 30_encoding.md R74–R76): the words of any well-formed command that passes its header checks, pushed one a step into an
idle block, leave that command complete in the latches, EXEC = 1, and nothing else changed but the latches and the port. -/
def Obligations.PushedWordsLatchTheCommand : Prop :=
  ∀ (i : Instr) (s : State) (rest : List HostEvent), i.wellFormed = true →
    s.fault = false → s.exec = false → s.parse = .idle → s.txt.length = 255 →
    headerCheck ((encode i).headD 0x0000#16) s = none →
    s.host = (encode i).map HostEvent.word ++ rest →
    ∃ t : State, Host.Core.run core (encode i).length s = .next t ∧ fetch t = .ok i ∧ t.exec = true ∧ t.parse = .idle
      ∧ t.nrx = 0 ∧ t.host = rest ∧ t.fb = s.fb ∧ t.glyphRom = s.glyphRom ∧ SameFlags s t ∧ SameFaultRecord s t
      ∧ t.xpPresent = s.xpPresent ∧ t.transport = s.transport ∧ t.bus = s.bus ∧ t.inFlight = s.inFlight

/-- The instruction that an opcode-table word decodes to is the one the next step runs, once that word is placed. -/
def Obligations.APlacedTableWordRunsNext : Prop :=
  ∀ (s : State) (nbits w : Nat) (i : Instr), s.txt.length = 255 → decodeTableWord nbits w = some i →
    step (s.withFetchWord nbits w) = exec i (s.withFetchWord nbits w)

/-! ## Encoding -/

/-- Decoding the words of a well-formed command, whatever follows them, gives the command and what follows. -/
def Obligations.DecodeOfEncodeIsTheCommand : Prop :=
  ∀ (i : Instr) (rest : List Word), i.wellFormed = true → decode (encode i ++ rest) = .ok (i, rest)

/-- What decodes to a command is that command's words, but for the padding byte of a text of odd length: no other bit of an accepted word is
dropped (30_encoding.md R71–R76). -/
def Obligations.DecodedWordsAreTheEncodedWords : Prop :=
  ∀ (ws rest : List Word) (i : Instr), decode ws = .ok (i, rest) →
    i.wellFormed = true ∧ (encode i).length ≤ ws.length ∧ rest = ws.drop (encode i).length
      ∧ ∀ (k : Nat) (w : Word), (encode i)[k]? = some w →
        ∃ v : Word, ws[k]? = some v
          ∧ (v = w ∨ (hasPadding i = true ∧ k + 1 = (encode i).length ∧ v.extractLsb' 0 8 = w.extractLsb' 0 8))

/-- 30_encoding.md R83: the encoding examples. Each line of assembler text gives the words shown, and those words decode to the command it
stands for. -/
def Obligations.SpecEncodingExamples : Prop :=
  ∀ p ∈ ([("CLEAR", [0x0001#16], Instr.clear),
      ("PIXEL 5, 5", [0x0002#16, 0x0005#16, 0x0005#16], .pixel 5#16 5#16),
      ("PIXEL -1, 0", [0x0002#16, 0xFFFF#16, 0x0000#16], .pixel 0xFFFF#16 0#16),
      ("GETPIX 3, 12", [0x0008#16, 0x0003#16, 0x000C#16], .getpix 3#16 12#16),
      ("LINE 0, 0, 3, 0", [0x0003#16, 0x0000#16, 0x0000#16, 0x0003#16, 0x0000#16], .line 0#16 0#16 3#16 0#16),
      ("RECT 0, 0, 4, 4", [0x0004#16, 0x0000#16, 0x0000#16, 0x0004#16, 0x0004#16], .rect 0#16 0#16 4#16 4#16),
      ("FILL 0, 0, 4, 4", [0x0005#16, 0x0000#16, 0x0000#16, 0x0004#16, 0x0004#16], .fill 0#16 0#16 4#16 4#16),
      ("TEXT 0, 0, \"A\"", [0x0106#16, 0x0000#16, 0x0000#16, 0x0041#16], .text 0#16 0#16 [0x41#8])] ++
     [("TEXT 0, 0, \"A\\xC8\"", [0x0206#16, 0x0000#16, 0x0000#16, 0xC841#16], Instr.text 0#16 0#16 [0x41#8, 0xC8#8]),
      ("TEXTC 0, \"AB\"", [0x0207#16, 0x0000#16, 0x4241#16], .textc 0#16 [0x41#8, 0x42#8]),
      ("TEXTC 1, \"abc\"", [0x0307#16, 0x0001#16, 0x6261#16, 0x0063#16], .textc 1#16 [0x61#8, 0x62#8, 0x63#8]),
      ("TEXT 10, 20, \"\"", [0x0006#16, 0x000A#16, 0x0014#16], .text 10#16 20#16 []),
      ("INIT", [0x0010#16], .init), ("UPDATE", [0x0011#16], .update),
      ("POWER on", [0x0112#16], .power true), ("POWER off", [0x0012#16], .power false)]
      : List (String × List Word × Instr)),
    assembleLine p.1.toList = some p.2.1 ∧ decode p.2.1 = .ok (p.2.2, [])

/-- 30_encoding.md R76: text word `j` carries byte `2j` in its low half and byte `2j+1` in its high half; the length is AUX; the high half of the last
word of an odd length is not looked at. For TEXT and for TEXTC, with any words after the command. -/
def Obligations.TextWordsCarryTwoBytesLowFirst : Prop :=
  ∀ (aux : Byte) (a b : Word) (ws rest : List Word), ws.length = (aux.toNat + 1) / 2 →
    ∃ t : List Byte, t.length = aux.toNat
      ∧ (∀ j, j < aux.toNat → t[j]? = ws[j / 2]?.map fun w => if j % 2 = 0 then w.extractLsb' 0 8 else w.extractLsb' 8 8)
      ∧ decode ((aux ++ 0x06#8) :: a :: b :: (ws ++ rest)) = .ok (.text a b t, rest)
      ∧ decode ((aux ++ 0x07#8) :: a :: (ws ++ rest)) = .ok (.textc a t, rest)

/-- 30_encoding.md R72 and 00_scope.md R14: an operand word is read as two's complement. -/
def Obligations.OperandsAreTwosComplement : Prop :=
  ∀ w : Word, sext16 w = (if w.getLsbD 15 then (w.toNat : Int) - 65536 else (w.toNat : Int))
    ∧ -32768 ≤ sext16 w ∧ sext16 w ≤ 32767 ∧ BitVec.ofInt 16 (sext16 w) = w

/-! ## The register read port -/

/-- 10_state.md R24 to R28 and R37: what each of the eight addresses reads. -/
def Obligations.RegisterPortReads : Prop :=
  ∀ s : State,
    ((regRead s 0#3).getLsbD 0 = true ↔ s.fault = false ∧ (s.parse = .collect ∨ s.exec = true))
      ∧ (regRead s 0#3).extractLsb' 1 2 = (match s.pstate with | .uninit => 0b00#2 | .on => 0b01#2 | .off => 0b10#2)
      ∧ (regRead s 0#3).getLsbD 3 = s.fault
      ∧ (regRead s 0#3).getLsbD 4 = s.initFailed
      ∧ (regRead s 0#3).extractLsb' 5 2 = (match s.xstat with | .ok => 0b00#2 | .error => 0b01#2 | .timeout => 0b10#2)
      ∧ (regRead s 0#3).extractLsb' 7 9 = 0#9
      ∧ regRead s 1#3 = (if s.pix then 0x0001#16 else 0x0000#16)
      ∧ regRead s 2#3 = (match s.fcause with
          | .none => 0#16 | .illegalOpcode => 1#16 | .reservedAux => 2#16
          | .doubleInit => 3#16 | .notInitialized => 4#16 | .noTransport => 5#16)
      ∧ regRead s 3#3 = s.fword ∧ regRead s 4#3 = 0x2848#16 ∧ regRead s 5#3 = 0x001C#16
      ∧ regRead s 6#3 = 0x0001#16 ∧ regRead s 7#3 = 0x0000#16

/-! ## The bit ports -/

/-- 40_framebuffer.md R100, with the address and bit of 20_memory.md R51: in bounds the port ORs one bit into one byte and leaves every other byte
alone; out of bounds nothing changes; and a command other than CLEAR writes the framebuffer through this port only. -/
def Obligations.TheBitSetPort : Prop :=
  (∀ (m : Memory) (x y : Nat), Memory.wf 360 m = true → x < 72 → y < 40 →
      ∃ b, m.read (y / 8 * 72 + x) = some b
        ∧ ∀ a, (setPixel m x y).read a = if a = y / 8 * 72 + x then some (b ||| 1#8 <<< (y % 8)) else m.read a)
    ∧ (∀ (m : Memory) (x y : Int), ¬ ((0 ≤ x ∧ x < 72) ∧ 0 ≤ y ∧ y < 40) → setPixel m x y = m)
    ∧ ∀ (i : Instr) (s t : State), exec i s = .next t → i ≠ .clear → t.resets = s.resets → ∃ ps, t.fb = setPixels s.fb ps

/-- 40_framebuffer.md R101: in bounds the port reads the pixel's bit of its byte; out of bounds it reads 0. -/
def Obligations.TheBitReadPort : Prop :=
  (∀ (m : Memory) (x y : Nat) (b : Byte), x < 72 → y < 40 → m.read (y / 8 * 72 + x) = some b →
      getPixel m x y = some (b.getLsbD (y % 8)))
    ∧ ∀ (m : Memory) (x y : Int), ¬ ((0 ≤ x ∧ x < 72) ∧ 0 ≤ y ∧ y < 40) → getPixel m x y = some false

/-- 20_memory.md R59: the order in which pixels are set, setting one more than once, and points out of bounds make no difference: point lists with the
same in-bounds points leave the same framebuffer. -/
def Obligations.PixelOrderMakesNoDifference : Prop :=
  ∀ (m : Memory) (ps qs : List (Int × Int)), Memory.wf 360 m = true →
    (∀ x y, inBounds x y = true → ((x, y) ∈ ps ↔ (x, y) ∈ qs)) → setPixels m ps = setPixels m qs

/-! ## The framebuffer commands -/

/-- CLEAR (40_framebuffer.md R103): in every state it runs; every byte there is becomes 0; then every pixel reads unlit; nothing else but the end of the
command. -/
def Obligations.ClearZeroesTheFramebuffer : Prop :=
  ∀ s : State, ∃ t, exec .clear s = .next t
    ∧ (∀ a, t.fb.read a = (s.fb.read a).map fun _ => 0x00#8)
    ∧ (Memory.wf 360 s.fb = true → ∀ x y, getPixel t.fb x y = some false)
    ∧ t.pix = s.pix ∧ EndedQuietly s t

/-- PIXEL (40_framebuffer.md R104): in every state it runs, and sets exactly its own pixel, none if that is out of bounds. -/
def Obligations.PixelSetsItsPixel : Prop :=
  ∀ (s : State) (x y : Word), Memory.wf 360 s.fb = true →
    ∃ t, exec (.pixel x y) s = .next t
      ∧ SetsExactly (fun px py => px = sext16 x ∧ py = sext16 y) s.fb t.fb ∧ t.pix = s.pix ∧ EndedQuietly s t

/-- GETPIX (40_framebuffer.md R105): PIX takes the pixel's bit, 0 if it is out of bounds, and RESULT shows it; the framebuffer does not change. -/
def Obligations.GetpixReadsItsPixel : Prop :=
  ∀ (s : State) (x y : Word), Memory.wf 360 s.fb = true →
    ∃ t, exec (.getpix x y) s = .next t
      ∧ (inBounds (sext16 x) (sext16 y) = true →
          ∃ b, s.fb.read (pixelAddr (sext16 x) (sext16 y)) = some b ∧ t.pix = b.getLsbD (pixelBit (sext16 y)))
      ∧ (inBounds (sext16 x) (sext16 y) = false → t.pix = false)
      ∧ regRead t 1#3 = (if t.pix then 0x0001#16 else 0x0000#16)
      ∧ t.fb = s.fb ∧ EndedQuietly s t

/-! ## The drawing commands -/

/-- LINE (41_drawing.md R121, R124, R125): it runs, and sets exactly the in-bounds points of the unclipped walk, endpoints in the order given. -/
def Obligations.LineSetsItsWalk : Prop :=
  ∀ (s : State) (x0 y0 x1 y1 : Word), Memory.wf 360 s.fb = true →
    ∃ t, exec (.line x0 y0 x1 y1) s = .next t
      ∧ SetsExactly (fun px py => (px, py) ∈ linePoints (sext16 x0) (sext16 y0) (sext16 x1) (sext16 y1)) s.fb t.fb
      ∧ t.pix = s.pix ∧ EndedQuietly s t

/-- RECT (41_drawing.md R126, R127): it runs, and sets exactly the outline of R126's closed form, for sizes of either sign, with `x+w` and `y+h` exact. -/
def Obligations.RectSetsItsOutline : Prop :=
  ∀ (s : State) (x y w h : Word), Memory.wf 360 s.fb = true →
    ∃ t, exec (.rect x y w h) s = .next t
      ∧ SetsExactly (OutlinePixels (sext16 x) (sext16 y) (sext16 w) (sext16 h)) s.fb t.fb
      ∧ t.pix = s.pix ∧ EndedQuietly s t

/-- FILL (41_drawing.md R128, R129): it runs, and sets exactly the half-open box; none for a size that is not positive. -/
def Obligations.FillSetsItsBox : Prop :=
  ∀ (s : State) (x y w h : Word), Memory.wf 360 s.fb = true →
    ∃ t, exec (.fill x y w h) s = .next t
      ∧ SetsExactly (BoxPixels (sext16 x) (sext16 y) (sext16 w) (sext16 h)) s.fb t.fb
      ∧ t.pix = s.pix ∧ EndedQuietly s t

/-- 41_drawing.md R128: the spans cover exactly the half-open box, and setting them equals the byte-wise form, which ORs one mask per page into each of the
page's columns that the fill covers. -/
def Obligations.FillEqualsTheByteWiseForm : Prop :=
  (∀ x y w h px py : Int, (px, py) ∈ fillSpans x y w h ↔ (x ≤ px ∧ px < x + w) ∧ y ≤ py ∧ py < y + h)
    ∧ ∀ (m : Memory) (x y w h : Int) (p i : Nat), Memory.wf 360 m = true → p < 5 → i < 72 →
      (setPixels m (fillSpans x y w h)).read (p * 72 + i)
        = (m.read (p * 72 + i)).map fun b =>
            if max y (8 * (p : Int)) < min (y + h) (8 * (p : Int) + 8) ∧ max x 0 ≤ (i : Int) ∧ (i : Int) < min (x + w) 72
            then b ||| pageMask y h p else b

/-- 41_drawing.md R130: for sizes that are not negative, RECT covers a box of `(w+1)×(h+1)` pixels and FILL one of `w×h`; both reach the box's
corners. -/
def Obligations.RectAndFillDifferByOne : Prop :=
  ∀ x y w h : Int, 0 ≤ w → 0 ≤ h →
    (∀ px py, (px, py) ∈ rectPoints x y w h → (x ≤ px ∧ px ≤ x + w) ∧ y ≤ py ∧ py ≤ y + h)
      ∧ (x, y) ∈ rectPoints x y w h ∧ (x + w, y + h) ∈ rectPoints x y w h
      ∧ (∀ px py, (px, py) ∈ fillSpans x y w h → (x ≤ px ∧ px < x + w) ∧ y ≤ py ∧ py < y + h)
      ∧ (0 < w → 0 < h → (x, y) ∈ fillSpans x y w h ∧ (x + w - 1, y + h - 1) ∈ fillSpans x y w h)

/-! ## The line engine's walk -/

/-- 41_drawing.md R121, written out: from `dx = |x1-x0|`, `dy = |y1-y0|`, `sx = sign(x1-x0)`, `sy = sign(y1-y0)`, `err = dx-dy` at the first
endpoint, point `k` of the walk is the position after `k` iterations, in each of which both tests read one `e2 = 2*err`; the walk ends at the
end test and nowhere else; and LINE calls `SetPixel` at the walk's points in their order. -/
def Obligations.TheWalkIsTheLoopOfTheRule : Prop :=
  (∀ x0 y0 x1 y1 : Int,
    let start : LineRegs :=
      { x := x0, y := y0, dx := |x1 - x0|, dy := |y1 - y0|, sx := (x1 - x0).sign, sy := (y1 - y0).sign
        err := |x1 - x0| - |y1 - y0| }
    let iteration : LineRegs → LineRegs := fun r =>
      let e2 := 2 * r.err
      let r' := if e2 > -r.dy then { r with err := r.err - r.dy, x := r.x + r.sx } else r
      if e2 < r.dx then { r' with err := r'.err + r.dx, y := r'.y + r.sy } else r'
    (linePoints x0 y0 x1 y1)[0]? = some (x0, y0)
      ∧ ∀ (k : Nat) (p : Int × Int), (linePoints x0 y0 x1 y1)[k]? = some p →
        p = ((iteration^[k] start).x, (iteration^[k] start).y)
          ∧ (p = (x1, y1) → (linePoints x0 y0 x1 y1).length = k + 1)
          ∧ (p ≠ (x1, y1) → ∃ q, (linePoints x0 y0 x1 y1)[k + 1]? = some q))
    ∧ ∀ (s : State) (x0 y0 x1 y1 : Word), ∃ t, exec (.line x0 y0 x1 y1) s = .next t
        ∧ t.fb = (linePoints (sext16 x0) (sext16 y0) (sext16 x1) (sext16 y1)).foldl (fun m p => setPixel m p.1 p.2) s.fb

/-- 41_drawing.md R122 items 1 and 2: the loop runs `max dx dy + 1` times, at distinct coordinates, from the first endpoint to the last: the model's
fuel never ends it early. -/
def Obligations.TheWalkRunsFromEndToEnd : Prop :=
  ∀ x0 y0 x1 y1 : Int,
    (linePoints x0 y0 x1 y1).length = max (x1 - x0).natAbs (y1 - y0).natAbs + 1
      ∧ (linePoints x0 y0 x1 y1).head? = some (x0, y0) ∧ (linePoints x0 y0 x1 y1).getLast? = some (x1, y1)
      ∧ (linePoints x0 y0 x1 y1).Nodup

/-- 41_drawing.md R122 items 3 and 4: consecutive points differ by at most 1 in each coordinate and are never equal; x moves only in direction `sx`,
y only in direction `sy`. -/
def Obligations.TheWalkIsEightConnectedAndMonotone : Prop :=
  ∀ (x0 y0 x1 y1 : Int) (k : Nat) (a b : Int × Int),
    (linePoints x0 y0 x1 y1)[k]? = some a → (linePoints x0 y0 x1 y1)[k + 1]? = some b →
      a ≠ b ∧ (b.1 = a.1 ∨ b.1 = a.1 + (x1 - x0).sign) ∧ (b.2 = a.2 ∨ b.2 = a.2 + (y1 - y0).sign)

/-- 41_drawing.md R122 item 5 and 00_scope.md R10: at every loop head `|err| ≤ 2·max dx dy`; with coordinates no further apart than 16-bit operands can be,
`2·err` fits the 20-bit datapath. -/
def Obligations.TheErrorTermIsBounded : Prop :=
  ∀ (x0 y0 x1 y1 : Int) (k : Nat), k ≤ max (x1 - x0).natAbs (y1 - y0).natAbs →
    (lineStep^[k] (lineStart x0 y0 x1 y1)).err.natAbs ≤ 2 * max (x1 - x0).natAbs (y1 - y0).natAbs
      ∧ (max (x1 - x0).natAbs (y1 - y0).natAbs ≤ 65535 →
          -262140 ≤ 2 * (lineStep^[k] (lineStart x0 y0 x1 y1)).err ∧ 2 * (lineStep^[k] (lineStart x0 y0 x1 y1)).err ≤ 262140)

/-- 41_drawing.md R122 item 7: the points of an axis-aligned line are exactly those between its endpoints, ends included. -/
def Obligations.AxisAlignedWalks : Prop :=
  (∀ x0 x1 y px py : Int, (px, py) ∈ linePoints x0 y x1 y ↔ Between x0 x1 px ∧ py = y)
    ∧ ∀ x y0 y1 px py : Int, (px, py) ∈ linePoints x y0 x y1 ↔ px = x ∧ Between y0 y1 py

/-- 41_drawing.md R123: the order of the endpoints matters; the rule's example. -/
def Obligations.EndpointOrderMatters : Prop :=
  linePoints 0 0 4 2 = [(0, 0), (1, 0), (2, 1), (3, 1), (4, 2)]
    ∧ linePoints 4 2 0 0 = [(4, 2), (3, 2), (2, 1), (1, 1), (0, 0)]
    ∧ (3, 2) ∈ linePoints 4 2 0 0 ∧ (3, 2) ∉ linePoints 0 0 4 2

/-! ## Text -/

/-- TEXT (42_text.md R151–R155): it runs, and sets exactly the pixels of its glyphs, each in the cell of its own index, for every content of the
LUT. -/
def Obligations.TextDrawsItsGlyphs : Prop :=
  ∀ (s : State) (x y : Word) (txt : List Byte), Memory.wf 360 s.fb = true →
    ∃ t, exec (.text x y txt) s = .next t
      ∧ SetsExactly (TextPixels s.glyphRom (sext16 x) (sext16 y) txt) s.fb t.fb
      ∧ t.pix = s.pix ∧ EndedQuietly s t

/-- TEXTC (42_text.md R156, R157): it runs, and draws the text at `x = 36 - 3L` for L up to 12 and `x = 0` beyond, `y = line·10`. -/
def Obligations.TextcDrawsCentred : Prop :=
  ∀ (s : State) (line : Word) (txt : List Byte), Memory.wf 360 s.fb = true →
    ∃ t, exec (.textc line txt) s = .next t
      ∧ SetsExactly
          (TextPixels s.glyphRom (if txt.length ≤ 12 then 36 - 3 * (txt.length : Int) else 0) (sext16 line * 10) txt) s.fb t.fb
      ∧ t.pix = s.pix ∧ EndedQuietly s t

/-! ## The transport port -/

/-- `Transact` (43_display_controller.md R180, R181): an answer by cycle T_XFER is the result; an answer after it, or none, gives TIMEOUT and pulses
`xp_abort`; one record of the transaction is left, one event is used up, and none is in flight. (That cycle T_XFER itself is in time is the model's reading: log
entry 11.) -/
def Obligations.ATransactionEndsByAnswerOrTimeout : Prop :=
  ∀ (f : Frame) (s : State) (e : XpEvent) (rest : List XpEvent), s.transport = e :: rest →
    (∀ c err, e.kind = .answer c err → c ≤ Config.tXfer → (transact f s).1 = .answered (if err then .error else .ok))
      ∧ (∀ c err, e.kind = .answer c err → Config.tXfer < c → (transact f s).1 = .answered .timeout)
      ∧ (e.kind = .silent → (transact f s).1 = .answered .timeout)
      ∧ (e.kind = .reset → (transact f s).1 = .abandoned)
      ∧ ∃ r : Txn, (transact f s).2 = { s with transport := rest, inFlight := none, bus := s.bus ++ [r] }
          ∧ r.addr = Config.busAddr ∧ r.frame = f ∧ r.moved ≤ f.payload.length + 1 ∧ r.fin = (transact f s).1
          ∧ (r.xpAbort = true ↔ (transact f s).1 = .answered .timeout)

/-- 43_display_controller.md R180: the bytes on the port are the control byte and then every byte of the payload, in order, and no more; the control byte is
flagged first; the last byte is flagged last, the control byte itself if the payload is empty. -/
def Obligations.BytesOnThePortAreFlagged : Prop :=
  ∀ f : Frame, f.beats.length = f.payload.length + 1
    ∧ ∀ (k : Nat) (b : Beat), f.beats[k]? = some b →
      (f.ctrl :: f.payload)[k]? = some b.data ∧ (b.first = true ↔ k = 0) ∧ (b.last = true ↔ k = f.payload.length)

/-- `RunSeq` (43_display_controller.md R186): if every transaction is answered OK, all are sent in order and the result is OK; else the first that is not ends it,
its answer is the result, and none of the rest is sent. -/
def Obligations.ASequenceStopsAtItsFirstFailure : Prop :=
  (∀ (fs : List Frame) (s : State) (es rest : List XpEvent), s.inFlight = none → s.transport = es ++ rest →
      es.length = fs.length → AllOk es →
      runSeq fs s = (.answered .ok, { s with transport := rest, bus := s.bus ++ List.zipWith txnRecord fs es }))
    ∧ ∀ (fs : List Frame) (s : State) (es rest : List XpEvent) (e : XpEvent), s.inFlight = none →
      s.transport = es ++ e :: rest → es.length < fs.length → AllOk es → eventEnd e ≠ .answered .ok →
      runSeq fs s = (eventEnd e, { s with transport := rest, bus := s.bus ++ List.zipWith txnRecord fs (es ++ [e]) })

/-- 43_display_controller.md R187 and R188: the bytes of the init sequence and of the window setup, in their order, for every table of controller opcodes and every
value of the open parameters. -/
def Obligations.InitAndWindowSequences : Prop :=
  ∀ (p : PanelOpc) (q : PanelParams),
    (initSeq p q).map Frame.bytes =
      [[0x00#8, p.displayOff], [0x00#8, p.clkDiv, q.clkDiv], [0x00#8, p.mux, 0x27#8], [0x00#8, p.offset, 0x00#8],
       [0x00#8, p.startLine], [0x00#8, p.chargePump, p.prmChargePumpOn], [0x00#8, p.addrMode, p.prmAddrHoriz],
       [0x00#8, p.segRemapInv], [0x00#8, p.comScanInv], [0x00#8, p.comPins, q.comPins], [0x00#8, p.contrast, q.contrast],
       [0x00#8, p.precharge, q.precharge], [0x00#8, p.vcomh, q.vcomh], [0x00#8, p.resume], [0x00#8, p.normal],
       [0x00#8, p.displayOn]]
    ∧ (windowSeq p).map Frame.bytes = [[0x00#8, p.colAddr, 0x1C#8, 0x63#8], [0x00#8, p.pageAddr, 0x00#8, 0x04#8]]

/-! ## The sequencer's commands -/

/-- INIT, every transaction answered OK (43_display_controller.md R190): it runs; the sixteen transactions are sent; PSTATE is ON, INIT_FAILED is 0, XSTAT is OK. -/
def Obligations.InitSucceeds : Prop :=
  ∀ (s : State) (es rest : List XpEvent), s.pstate = .uninit → s.xpPresent = true → s.transport = es ++ rest →
    es.length = 16 → AllOk es →
    ∃ t, exec .init s = .next t ∧ t.pstate = .on ∧ t.initFailed = false ∧ t.xstat = .ok ∧ t.transport = rest
      ∧ t.bus = s.bus ++ List.zipWith txnRecord (initSeq Config.panelOpc Config.panelParams) es ∧ BusEnded s t

/-- INIT, its transaction number `k + 1` not answered OK (43_display_controller.md R190): only the first `k + 1` transactions are sent; PSTATE stays UNINIT,
INIT_FAILED is 1, XSTAT is that answer. -/
def Obligations.AFailedInitLeavesUninit : Prop :=
  ∀ (s : State) (es rest : List XpEvent) (e : XpEvent) (a : Answer), s.pstate = .uninit → s.xpPresent = true →
    s.transport = es ++ e :: rest → es.length < 16 → AllOk es → eventEnd e = .answered a → a ≠ .ok →
    ∃ t, exec .init s = .next t ∧ t.pstate = .uninit ∧ t.initFailed = true ∧ t.xstat = a ∧ t.transport = rest
      ∧ t.bus = s.bus ++ List.zipWith txnRecord (initSeq Config.panelOpc Config.panelParams) (es ++ [e]) ∧ BusEnded s t

/-- UPDATE, every transaction answered OK (43_display_controller.md R185, R193; 20_memory.md R50): it runs; the column window, the page window, then one data
transaction of exactly 360 bytes, byte `k` of it FB[k]; XSTAT is OK; nothing else. -/
def Obligations.UpdateSendsTheFramebuffer : Prop :=
  ∀ (s : State) (e1 e2 e3 : XpEvent) (rest : List XpEvent), Memory.wf 360 s.fb = true → s.pstate ≠ .uninit →
    s.xpPresent = true → s.transport = e1 :: e2 :: e3 :: rest → AllOk [e1, e2, e3] →
    ∃ (t : State) (bytes : List Byte), exec .update s = .next t
      ∧ bytes.length = 360 ∧ (∀ k, k < 360 → bytes[k]? = s.fb.read k)
      ∧ t.bus = s.bus ++
          [txnRecord ⟨0x00#8, [Config.panelOpc.colAddr, 28#8, 99#8]⟩ e1,
           txnRecord ⟨0x00#8, [Config.panelOpc.pageAddr, 0#8, 4#8]⟩ e2, txnRecord ⟨0x40#8, bytes⟩ e3]
      ∧ t.xstat = .ok ∧ t.transport = rest ∧ t.pstate = s.pstate ∧ t.initFailed = s.initFailed ∧ BusEnded s t

/-- UPDATE, a transaction not answered OK (43_display_controller.md R186, R193): it is the last one sent; XSTAT is its answer; PSTATE, INIT_FAILED and the
framebuffer do not change. -/
def Obligations.AFailedUpdateStops : Prop :=
  ∀ (s : State) (es rest : List XpEvent) (e : XpEvent) (a : Answer), Memory.wf 360 s.fb = true → s.pstate ≠ .uninit →
    s.xpPresent = true → s.transport = es ++ e :: rest → es.length < 3 → AllOk es → eventEnd e = .answered a → a ≠ .ok →
    ∃ (t : State) (bytes : List Byte), exec .update s = .next t
      ∧ bytes.length = 360 ∧ (∀ k, k < 360 → bytes[k]? = s.fb.read k)
      ∧ t.bus = s.bus ++ List.zipWith txnRecord
          [⟨0x00#8, [Config.panelOpc.colAddr, 28#8, 99#8]⟩, ⟨0x00#8, [Config.panelOpc.pageAddr, 0#8, 4#8]⟩, ⟨0x40#8, bytes⟩]
          (es ++ [e])
      ∧ t.xstat = a ∧ t.transport = rest ∧ t.pstate = s.pstate ∧ t.initFailed = s.initFailed ∧ BusEnded s t

/-- POWER (43_display_controller.md R196): it sends its one transaction, also to the state already held; XSTAT is the answer; PSTATE takes the new state on OK and
stays otherwise. -/
def Obligations.PowerSwitchesTheDisplay : Prop :=
  ∀ (s : State) (on : Bool) (e : XpEvent) (rest : List XpEvent) (a : Answer), s.pstate ≠ .uninit → s.xpPresent = true →
    s.transport = e :: rest → eventEnd e = .answered a →
    ∃ t, exec (.power on) s = .next t
      ∧ t.bus = s.bus ++
          [txnRecord ⟨0x00#8, [if on then Config.panelOpc.displayOn else Config.panelOpc.displayOff]⟩ e]
      ∧ t.xstat = a ∧ (a = .ok → t.pstate = if on then .on else .off) ∧ (a ≠ .ok → t.pstate = s.pstate)
      ∧ t.transport = rest ∧ t.initFailed = s.initFailed ∧ BusEnded s t

/-- 60_exceptions.md R222, R225: in the wrong state or without a transport INIT, UPDATE and POWER take the fault, with HDR as the faulting header word, and have no
other effect. -/
def Obligations.BusCommandsFaultInTheWrongState : Prop :=
  ∀ s : State,
    (s.pstate ≠ .uninit → exec .init s = .next
        { s with fault := true, fcause := .doubleInit, fword := s.hdr, parse := .idle, exec := false })
      ∧ (s.pstate = .uninit → s.xpPresent = false → exec .init s = .next
        { s with fault := true, fcause := .noTransport, fword := s.hdr, parse := .idle, exec := false })
      ∧ (∀ i, (i = .update ∨ ∃ on, i = .power on) → s.pstate = .uninit → exec i s = .next
        { s with fault := true, fcause := .notInitialized, fword := s.hdr, parse := .idle, exec := false })
      ∧ (∀ i, (i = .update ∨ ∃ on, i = .power on) → s.pstate ≠ .uninit → s.xpPresent = false → exec i s = .next
        { s with fault := true, fcause := .noTransport, fword := s.hdr, parse := .idle, exec := false })

/-- 70_reset_and_hazards.md R251: a reset in one of a bus-facing command's transactions abandons it and the command: the transactions before it stand, it is recorded as
abandoned, none follows, and the state is the reset state. -/
def Obligations.AResetAbandonsTheOpenTransaction : Prop :=
  ∀ (s : State) (i : Instr) (es rest : List XpEvent) (e : XpEvent), Memory.wf 360 s.fb = true → s.xpPresent = true →
    (i = .init ∧ s.pstate = .uninit ∧ es.length < 16
      ∨ i = .update ∧ s.pstate ≠ .uninit ∧ es.length < 3
      ∨ (∃ on, i = .power on) ∧ s.pstate ≠ .uninit ∧ es.length < 1) →
    s.transport = es ++ e :: rest → AllOk es → e.kind = .reset →
    ∃ (u : State) (rs : List Txn) (r : Txn), exec i s = .next (takeReset u)
      ∧ u.bus = s.bus ++ rs ++ [r] ∧ rs.length = es.length ∧ (∀ q ∈ rs, q.fin = .answered .ok) ∧ r.fin = .abandoned
      ∧ u.transport = rest ∧ u.host = s.host ∧ u.glyphRom = s.glyphRom ∧ u.resets = s.resets

/-! ## Rules of the whole machine -/

/-- 43_display_controller.md R197 and 10_state.md R23: a step changes PSTATE only by a successful INIT, from UNINIT to ON; by a successful POWER, from ON or OFF to
the state it names; or by a reset, to UNINIT. -/
def Obligations.PowerStateChangesOnlyAsTheTableSays : Prop :=
  ∀ s t : State, step s = .next t → t.pstate ≠ s.pstate →
    (s.exec = true ∧ fetch s = .ok .init ∧ s.pstate = .uninit ∧ t.pstate = .on ∧ t.initFailed = false ∧ t.xstat = .ok)
      ∨ (s.exec = true ∧ (∃ on, fetch s = .ok (.power on) ∧ t.pstate = if on then .on else .off) ∧ s.pstate ≠ .uninit
          ∧ t.xstat = .ok)
      ∨ (t.pstate = .uninit ∧ t.resets = s.resets + 1)

/-- 43_display_controller.md R197: the transition table of PSTATE with its other effects, row by row, where no reset comes and the transport is attached; the
code that XSTAT takes is the answer of the last transaction sent. The rule checks the two rows that fault at the header; that they hold of the execution is
the check the model repeats there (log entry 15). -/
def Obligations.PowerStateTransitionTable : Prop :=
  ∀ (i : Instr) (s t : State), exec i s = .next t → t.resets = s.resets →
    (i = .init → s.pstate = .uninit → s.xpPresent = true →
        t.pstate = (if t.xstat = .ok then .on else .uninit) ∧ t.initFailed = decide (t.xstat ≠ .ok))
      ∧ (i = .init → s.pstate ≠ .uninit → t.pstate = s.pstate ∧ t.fault = true ∧ t.fcause = .doubleInit)
      ∧ ((i = .update ∨ ∃ on, i = .power on) → s.pstate = .uninit →
        t.pstate = .uninit ∧ t.fault = true ∧ t.fcause = .notInitialized)
      ∧ (i = .update → s.pstate ≠ .uninit → t.pstate = s.pstate)
      ∧ (∀ on, i = .power on → s.pstate ≠ .uninit → s.xpPresent = true →
        t.pstate = if t.xstat = .ok then (if on then .on else .off) else s.pstate)
      ∧ (isBusCommand i = true → (s.pstate = .uninit ↔ i = .init) → s.xpPresent = true →
        ∃ r, t.bus.getLast? = some r ∧ r.fin = .answered t.xstat)
      ∧ (isBusCommand i = false → t.pstate = s.pstate)

/-- 20_memory.md R60: between two CLEARs, and with no reset, the lit pixels never become fewer: a step that executes no CLEAR and takes no reset keeps every lit
pixel lit. -/
def Obligations.OnlyClearUnlightsAPixel : Prop :=
  ∀ s t : State, Memory.wf 360 s.fb = true → step s = .next t → t.resets = s.resets →
    ¬ (s.exec = true ∧ fetch s = .ok .clear) → ∀ x y, Lit s.fb x y → Lit t.fb x y

/-- 10_state.md R38 (also R25, R35, R36): which command writes which field. Where a command answers a next state with no reset in it, a field that
differs is one the table lets it write. (A fault taken at the execution is the check the model repeats there, log entry 15.) -/
def Obligations.EachFieldHasItsWriters : Prop :=
  ∀ (i : Instr) (s t : State), exec i s = .next t → t.resets = s.resets →
    (t.fb ≠ s.fb → isBusCommand i = false ∧ ∀ x y, i ≠ .getpix x y)
      ∧ (t.pstate ≠ s.pstate → i = .init ∨ ∃ on, i = .power on)
      ∧ (t.initFailed ≠ s.initFailed → i = .init)
      ∧ (t.xstat ≠ s.xstat → isBusCommand i = true)
      ∧ (t.pix ≠ s.pix → ∃ x y, i = .getpix x y)
      ∧ (¬ SameFaultRecord s t → isBusCommand i = true ∧ t.fault = true ∧ t.bus = s.bus)
      ∧ (t.bus ≠ s.bus → isBusCommand i = true)
      ∧ t.glyphRom = s.glyphRom ∧ t.hdr = s.hdr ∧ t.opnd = s.opnd ∧ t.txt = s.txt ∧ t.host = s.host
      ∧ t.xpPresent = s.xpPresent ∧ t.exec = false

/-- 10_state.md R22: the LUT is 475 bytes, the OPEN parameter's; and no step writes it, a reset included. -/
def Obligations.TheGlyphRomIsNeverWritten : Prop :=
  (Memory.wf 475 State.reset.glyphRom = true ∧ ∀ a, a < 475 → State.reset.glyphRom.read a = some (Config.glyphByte a))
    ∧ ∀ s t : State, step s = .next t → t.glyphRom = s.glyphRom

/-- 43_display_controller.md R199: INIT and POWER never read the framebuffer: with another framebuffer they do the same, and leave it alone, unless a reset comes. -/
def Obligations.InitAndPowerNeverReadTheFramebuffer : Prop :=
  ∀ (i : Instr) (s t : State) (m : Memory), (i = .init ∨ ∃ on, i = .power on) → exec i s = .next t →
    ∃ u : State, exec i { s with fb := m } = .next u ∧ { u with fb := t.fb } = t ∧ (t.resets = s.resets → u.fb = m ∧ t.fb = s.fb)

/-- 43_display_controller.md R193 (S10): what UPDATE sends depends on the framebuffer's content alone, not on how it came about nor on any other field of the block: two states that
agree on the framebuffer, and whose transports act alike, issue the same transactions. -/
def Obligations.UpdateSendsTheSameForTheSameContent : Prop :=
  ∀ s s' t t' : State, s'.fb = s.fb → s'.transport = s.transport → s'.bus = s.bus →
    s.pstate ≠ .uninit → s'.pstate ≠ .uninit → s.xpPresent = true → s'.xpPresent = true →
    exec .update s = .next t → exec .update s' = .next t' → t'.bus = t.bus
end

