-- ==== Sys2Proof/Laws/Decode.lean ====
section
/-!
SUPPORT. The laws of words, headers and text packing.
-/

namespace Sys2Proof

@[simp] theorem lo_ofBytes (hi lo : Byte) : (Word.ofBytes hi lo).lo = lo := by
  apply BitVec.eq_of_getLsbD_eq
  intro i hi'
  simp only [Word.lo, Word.ofBytes, BitVec.getLsbD_extractLsb', Nat.zero_add]
  rw [BitVec.getLsbD_append]
  simp [hi']

@[simp] theorem hi_ofBytes (hi lo : Byte) : (Word.ofBytes hi lo).hi = hi := by
  apply BitVec.eq_of_getLsbD_eq
  intro i hi'
  simp only [Word.hi, Word.ofBytes, BitVec.getLsbD_extractLsb']
  rw [BitVec.getLsbD_append]
  simp [hi']

@[simp] theorem ofBytes_hi_lo (w : Word) : Word.ofBytes w.hi w.lo = w := by
  apply BitVec.eq_of_getLsbD_eq
  intro i hi'
  simp only [Word.hi, Word.lo, Word.ofBytes, BitVec.getLsbD_append, BitVec.getLsbD_extractLsb']
  by_cases h : i < 8
  · simp [h]
  · have h1 : i - 8 < 8 := by omega
    have h2 : 8 + (i - 8) = i := by omega
    simp [h, h1, h2]

@[simp] theorem opcField_headerWord (aux opc : Byte) : opcField (headerWord aux opc) = opc := lo_ofBytes aux opc

@[simp] theorem auxField_headerWord (aux opc : Byte) : auxField (headerWord aux opc) = aux := hi_ofBytes aux opc

theorem lenAux_toNat {t : List Byte} (h : t.length ≤ Config.txtMax) : (lenAux t).toNat = t.length := by
  simp only [lenAux, BitVec.toNat_ofNat]; exact Nat.mod_eq_of_lt (by simp only [Config.txtMax] at h; omega)

theorem packText_length (t : List Byte) : (packText t).length = ceilHalf t.length := by
  fun_induction packText t with
  | case1 => rfl
  | case2 => simp [ceilHalf]
  | case3 b c t ih => simp only [List.length_cons, ih, ceilHalf]; omega

theorem unpackText_length (ws : List Word) : (unpackText ws).length = 2 * ws.length := by
  induction ws with
  | nil => rfl
  | cons w ws ih => simp only [unpackText, List.length_cons, ih]; omega

/-- Unpacking gives the packed bytes back; an odd length leaves its padding byte after them. -/
theorem take_unpackText_packText (t : List Byte) : (unpackText (packText t)).take t.length = t := by
  fun_induction packText t with
  | case1 => rfl
  | case2 => simp [unpackText]
  | case3 b c t ih => simp [unpackText, ih]

/-- The low byte of text word `j` is byte `2j` and its high byte is byte `2j+1` (30_encoding.md R76). -/
theorem getElem?_unpackText (ws : List Word) (i : Nat) :
    (unpackText ws)[i]? = ws[i / 2]?.map fun w => if i % 2 = 0 then w.lo else w.hi := by
  induction ws generalizing i with
  | nil => simp [unpackText]
  | cons w ws ih =>
    match i with
    | 0 => simp [unpackText]
    | 1 => simp [unpackText]
    | i + 2 =>
      have h2 : (i + 2) / 2 = i / 2 + 1 := by omega
      have h3 : (i + 2) % 2 = i % 2 := by omega
      simp [unpackText, ih, h2, h3]

theorem cmdLen_pos (h : Word) : 1 ≤ cmdLen h := by
  unfold cmdLen; dsimp only; split_ifs <;> omega

/-- The one word that decodes as this header. -/
def headerWordOf : Header → Word
  | .clear => headerWord 0x00#8 0x01#8
  | .pixel => headerWord 0x00#8 0x02#8
  | .line => headerWord 0x00#8 0x03#8
  | .rect => headerWord 0x00#8 0x04#8
  | .fill => headerWord 0x00#8 0x05#8
  | .text len => headerWord len 0x06#8
  | .textc len => headerWord len 0x07#8
  | .getpix => headerWord 0x00#8 0x08#8
  | .init => headerWord 0x00#8 0x10#8
  | .update => headerWord 0x00#8 0x11#8
  | .power on => headerWord (if on then 0x01#8 else 0x00#8) 0x12#8

theorem word_eq_headerWord {h : Word} {aux opc : Byte} (ho : opcField h = opc) (ha : auxField h = aux) :
    h = headerWord aux opc := by
  rw [← ho, ← ha]; exact (ofBytes_hi_lo h).symm

theorem plainHeader_ok {aux : Byte} {k k' : Header} (h : plainHeader aux k = .ok k') : aux = 0x00#8 ∧ k' = k := by
  unfold plainHeader at h; split at h
  · next ha => injection h with h; exact ⟨ha, h.symm⟩
  · cases h

theorem powerHeader_ok {aux : Byte} {k : Header} (h : powerHeader aux = .ok k) :
    k = .power (aux.getLsbD 0) ∧ aux = if aux.getLsbD 0 then 0x01#8 else 0x00#8 := by
  unfold powerHeader at h; split at h
  · next ha =>
    injection h with h
    have key : ∀ a : Byte, a.extractLsb' 1 7 = 0#7 → a = if a.getLsbD 0 then 0x01#8 else 0x00#8 := by decide
    exact ⟨h.symm, key aux ha⟩
  · cases h

/-- A header word is decoded to the one header it is the word of. -/
theorem eq_headerWordOf {h : Word} {k : Header} (hk : decodeHeader h = .ok k) : h = headerWordOf k := by
  unfold decodeHeader at hk; dsimp only at hk
  have plain : ∀ {opc : Byte} {k' : Header}, opcField h = opc → plainHeader (auxField h) k' = .ok k →
      headerWordOf k' = headerWord 0x00#8 opc → h = headerWordOf k := by
    intro opc k' ho hp hw
    obtain ⟨ha, rfl⟩ := plainHeader_ok hp
    rw [hw]; exact word_eq_headerWord ho ha
  by_cases h1 : opcField h = 0x01#8
  · rw [if_pos h1] at hk; exact plain h1 hk rfl
  rw [if_neg h1] at hk
  by_cases h2 : opcField h = 0x02#8
  · rw [if_pos h2] at hk; exact plain h2 hk rfl
  rw [if_neg h2] at hk
  by_cases h3 : opcField h = 0x03#8
  · rw [if_pos h3] at hk; exact plain h3 hk rfl
  rw [if_neg h3] at hk
  by_cases h4 : opcField h = 0x04#8
  · rw [if_pos h4] at hk; exact plain h4 hk rfl
  rw [if_neg h4] at hk
  by_cases h5 : opcField h = 0x05#8
  · rw [if_pos h5] at hk; exact plain h5 hk rfl
  rw [if_neg h5] at hk
  by_cases h6 : opcField h = 0x06#8
  · rw [if_pos h6] at hk; injection hk with hk; subst hk; exact word_eq_headerWord h6 rfl
  rw [if_neg h6] at hk
  by_cases h7 : opcField h = 0x07#8
  · rw [if_pos h7] at hk; injection hk with hk; subst hk; exact word_eq_headerWord h7 rfl
  rw [if_neg h7] at hk
  by_cases h8 : opcField h = 0x08#8
  · rw [if_pos h8] at hk; exact plain h8 hk rfl
  rw [if_neg h8] at hk
  by_cases h9 : opcField h = 0x10#8
  · rw [if_pos h9] at hk; exact plain h9 hk rfl
  rw [if_neg h9] at hk
  by_cases h10 : opcField h = 0x11#8
  · rw [if_pos h10] at hk; exact plain h10 hk rfl
  rw [if_neg h10] at hk
  by_cases h11 : opcField h = 0x12#8
  · rw [if_pos h11] at hk
    obtain ⟨rfl, ha⟩ := powerHeader_ok hk
    exact word_eq_headerWord h11 ha
  rw [if_neg h11] at hk; cases hk

/-- Every header's word decodes to it. -/
theorem decodeHeader_headerWordOf (k : Header) : decodeHeader (headerWordOf k) = .ok k := by
  cases k with
  | text len => simp [decodeHeader, headerWordOf]
  | textc len => simp [decodeHeader, headerWordOf]
  | power on => cases on <;> rfl
  | _ => rfl

/-- A command's length, by its header (R74). -/
theorem cmdLen_headerWordOf (k : Header) : cmdLen (headerWordOf k) = match k with
    | .clear => 1 | .init => 1 | .update => 1 | .power _ => 1
    | .pixel => 3 | .getpix => 3 | .line => 5 | .rect => 5 | .fill => 5
    | .text len => 3 + ceilHalf len.toNat | .textc len => 2 + ceilHalf len.toNat := by
  cases k with
  | text len => simp [cmdLen, headerWordOf]
  | textc len => simp [cmdLen, headerWordOf]
  | power on => cases on <;> rfl
  | _ => rfl

/-- Where a command's text words start, by its header (R75). -/
theorem textStart_headerWordOf (k : Header) : textStart (headerWordOf k) = match k with
    | .text _ => some 2 | .textc _ => some 1
    | .clear => none | .init => none | .update => none | .power _ => none
    | .pixel => none | .getpix => none | .line => none | .rect => none | .fill => none := by
  cases k with
  | text len => simp [textStart, headerWordOf]
  | textc len => simp [textStart, headerWordOf]
  | power on => cases on <;> rfl
  | _ => rfl
end Sys2Proof
end

