-- ==== Sys2Proof/Laws/State.lean ====
section
/-!
SUPPORT. For each named update of the state, what it leaves in each field. All are true by definition, so that no later proof unfolds a
record update.
-/

namespace Sys2Proof.Machine

section finish
variable (s : State)

@[simp] theorem finish_fb : (finish s).fb = s.fb := rfl
@[simp] theorem finish_glyphRom : (finish s).glyphRom = s.glyphRom := rfl
@[simp] theorem finish_pstate : (finish s).pstate = s.pstate := rfl
@[simp] theorem finish_fault : (finish s).fault = s.fault := rfl
@[simp] theorem finish_fcause : (finish s).fcause = s.fcause := rfl
@[simp] theorem finish_fword : (finish s).fword = s.fword := rfl
@[simp] theorem finish_initFailed : (finish s).initFailed = s.initFailed := rfl
@[simp] theorem finish_xstat : (finish s).xstat = s.xstat := rfl
@[simp] theorem finish_pix : (finish s).pix = s.pix := rfl
@[simp] theorem finish_parse : (finish s).parse = s.parse := rfl
@[simp] theorem finish_nrx : (finish s).nrx = s.nrx := rfl
@[simp] theorem finish_hdr : (finish s).hdr = s.hdr := rfl
@[simp] theorem finish_opnd : (finish s).opnd = s.opnd := rfl
@[simp] theorem finish_txt : (finish s).txt = s.txt := rfl
@[simp] theorem finish_exec : (finish s).exec = false := rfl
@[simp] theorem finish_work : (finish s).work = Config.freeWork s.ended := rfl
@[simp] theorem finish_inFlight : (finish s).inFlight = s.inFlight := rfl
@[simp] theorem finish_xpPresent : (finish s).xpPresent = s.xpPresent := rfl
@[simp] theorem finish_host : (finish s).host = s.host := rfl
@[simp] theorem finish_transport : (finish s).transport = s.transport := rfl
@[simp] theorem finish_bus : (finish s).bus = s.bus := rfl
@[simp] theorem finish_resets : (finish s).resets = s.resets := rfl
@[simp] theorem finish_ended : (finish s).ended = s.ended + 1 := rfl

end finish

section draw
variable (ps : List (Int × Int)) (s : State)

@[simp] theorem draw_fb : (draw ps s).fb = setPixels s.fb ps := rfl
@[simp] theorem draw_glyphRom : (draw ps s).glyphRom = s.glyphRom := rfl
@[simp] theorem draw_pstate : (draw ps s).pstate = s.pstate := rfl
@[simp] theorem draw_fault : (draw ps s).fault = s.fault := rfl
@[simp] theorem draw_fcause : (draw ps s).fcause = s.fcause := rfl
@[simp] theorem draw_fword : (draw ps s).fword = s.fword := rfl
@[simp] theorem draw_initFailed : (draw ps s).initFailed = s.initFailed := rfl
@[simp] theorem draw_xstat : (draw ps s).xstat = s.xstat := rfl
@[simp] theorem draw_pix : (draw ps s).pix = s.pix := rfl
@[simp] theorem draw_parse : (draw ps s).parse = s.parse := rfl
@[simp] theorem draw_nrx : (draw ps s).nrx = s.nrx := rfl
@[simp] theorem draw_hdr : (draw ps s).hdr = s.hdr := rfl
@[simp] theorem draw_opnd : (draw ps s).opnd = s.opnd := rfl
@[simp] theorem draw_txt : (draw ps s).txt = s.txt := rfl
@[simp] theorem draw_exec : (draw ps s).exec = false := rfl
@[simp] theorem draw_work : (draw ps s).work = Config.freeWork s.ended := rfl
@[simp] theorem draw_inFlight : (draw ps s).inFlight = s.inFlight := rfl
@[simp] theorem draw_xpPresent : (draw ps s).xpPresent = s.xpPresent := rfl
@[simp] theorem draw_host : (draw ps s).host = s.host := rfl
@[simp] theorem draw_transport : (draw ps s).transport = s.transport := rfl
@[simp] theorem draw_bus : (draw ps s).bus = s.bus := rfl
@[simp] theorem draw_resets : (draw ps s).resets = s.resets := rfl
@[simp] theorem draw_ended : (draw ps s).ended = s.ended + 1 := rfl

end draw

section raiseFault
variable (c : Cause) (s : State)

@[simp] theorem raiseFault_fb : (raiseFault c s).fb = s.fb := rfl
@[simp] theorem raiseFault_glyphRom : (raiseFault c s).glyphRom = s.glyphRom := rfl
@[simp] theorem raiseFault_pstate : (raiseFault c s).pstate = s.pstate := rfl
@[simp] theorem raiseFault_fault : (raiseFault c s).fault = true := rfl
@[simp] theorem raiseFault_fcause : (raiseFault c s).fcause = c := rfl
@[simp] theorem raiseFault_fword : (raiseFault c s).fword = s.hdr := rfl
@[simp] theorem raiseFault_initFailed : (raiseFault c s).initFailed = s.initFailed := rfl
@[simp] theorem raiseFault_xstat : (raiseFault c s).xstat = s.xstat := rfl
@[simp] theorem raiseFault_pix : (raiseFault c s).pix = s.pix := rfl
@[simp] theorem raiseFault_parse : (raiseFault c s).parse = .idle := rfl
@[simp] theorem raiseFault_nrx : (raiseFault c s).nrx = s.nrx := rfl
@[simp] theorem raiseFault_hdr : (raiseFault c s).hdr = s.hdr := rfl
@[simp] theorem raiseFault_opnd : (raiseFault c s).opnd = s.opnd := rfl
@[simp] theorem raiseFault_txt : (raiseFault c s).txt = s.txt := rfl
@[simp] theorem raiseFault_exec : (raiseFault c s).exec = false := rfl
@[simp] theorem raiseFault_work : (raiseFault c s).work = s.work := rfl
@[simp] theorem raiseFault_inFlight : (raiseFault c s).inFlight = s.inFlight := rfl
@[simp] theorem raiseFault_xpPresent : (raiseFault c s).xpPresent = s.xpPresent := rfl
@[simp] theorem raiseFault_host : (raiseFault c s).host = s.host := rfl
@[simp] theorem raiseFault_transport : (raiseFault c s).transport = s.transport := rfl
@[simp] theorem raiseFault_bus : (raiseFault c s).bus = s.bus := rfl
@[simp] theorem raiseFault_resets : (raiseFault c s).resets = s.resets := rfl
@[simp] theorem raiseFault_ended : (raiseFault c s).ended = s.ended := rfl

end raiseFault

section completeCommand
variable (s : State)

@[simp] theorem completeCommand_fb : (completeCommand s).fb = s.fb := rfl
@[simp] theorem completeCommand_glyphRom : (completeCommand s).glyphRom = s.glyphRom := rfl
@[simp] theorem completeCommand_pstate : (completeCommand s).pstate = s.pstate := rfl
@[simp] theorem completeCommand_fault : (completeCommand s).fault = s.fault := rfl
@[simp] theorem completeCommand_fcause : (completeCommand s).fcause = s.fcause := rfl
@[simp] theorem completeCommand_fword : (completeCommand s).fword = s.fword := rfl
@[simp] theorem completeCommand_initFailed : (completeCommand s).initFailed = s.initFailed := rfl
@[simp] theorem completeCommand_xstat : (completeCommand s).xstat = s.xstat := rfl
@[simp] theorem completeCommand_pix : (completeCommand s).pix = s.pix := rfl
@[simp] theorem completeCommand_parse : (completeCommand s).parse = .idle := rfl
@[simp] theorem completeCommand_nrx : (completeCommand s).nrx = 0 := rfl
@[simp] theorem completeCommand_hdr : (completeCommand s).hdr = s.hdr := rfl
@[simp] theorem completeCommand_opnd : (completeCommand s).opnd = s.opnd := rfl
@[simp] theorem completeCommand_txt : (completeCommand s).txt = s.txt := rfl
@[simp] theorem completeCommand_exec : (completeCommand s).exec = true := rfl
@[simp] theorem completeCommand_work : (completeCommand s).work = s.work := rfl
@[simp] theorem completeCommand_inFlight : (completeCommand s).inFlight = s.inFlight := rfl
@[simp] theorem completeCommand_xpPresent : (completeCommand s).xpPresent = s.xpPresent := rfl
@[simp] theorem completeCommand_host : (completeCommand s).host = s.host := rfl
@[simp] theorem completeCommand_transport : (completeCommand s).transport = s.transport := rfl
@[simp] theorem completeCommand_bus : (completeCommand s).bus = s.bus := rfl
@[simp] theorem completeCommand_resets : (completeCommand s).resets = s.resets := rfl
@[simp] theorem completeCommand_ended : (completeCommand s).ended = s.ended := rfl

end completeCommand

section takeReset
variable (s : State)

@[simp] theorem takeReset_fb : (takeReset s).fb = freshFramebuffer (s.resets + 1) := rfl
@[simp] theorem takeReset_glyphRom : (takeReset s).glyphRom = s.glyphRom := rfl
@[simp] theorem takeReset_pstate : (takeReset s).pstate = .uninit := rfl
@[simp] theorem takeReset_fault : (takeReset s).fault = false := rfl
@[simp] theorem takeReset_fcause : (takeReset s).fcause = .none := rfl
@[simp] theorem takeReset_fword : (takeReset s).fword = 0#16 := rfl
@[simp] theorem takeReset_initFailed : (takeReset s).initFailed = false := rfl
@[simp] theorem takeReset_xstat : (takeReset s).xstat = .ok := rfl
@[simp] theorem takeReset_pix : (takeReset s).pix = false := rfl
@[simp] theorem takeReset_parse : (takeReset s).parse = .idle := rfl
@[simp] theorem takeReset_nrx : (takeReset s).nrx = 0 := rfl
@[simp] theorem takeReset_hdr : (takeReset s).hdr = 0#16 := rfl
@[simp] theorem takeReset_opnd : (takeReset s).opnd = ⟨0#16, 0#16, 0#16, 0#16⟩ := rfl
@[simp] theorem takeReset_txt : (takeReset s).txt = State.reset.txt := rfl
@[simp] theorem takeReset_exec : (takeReset s).exec = false := rfl
@[simp] theorem takeReset_work : (takeReset s).work = Work.zero := rfl
@[simp] theorem takeReset_inFlight : (takeReset s).inFlight = none := rfl
@[simp] theorem takeReset_xpPresent : (takeReset s).xpPresent = s.xpPresent := rfl
@[simp] theorem takeReset_host : (takeReset s).host = s.host := rfl
@[simp] theorem takeReset_transport : (takeReset s).transport = s.transport := rfl
@[simp] theorem takeReset_bus : (takeReset s).bus = s.bus := rfl
@[simp] theorem takeReset_resets : (takeReset s).resets = s.resets + 1 := rfl
@[simp] theorem takeReset_ended : (takeReset s).ended = s.ended := rfl

end takeReset

section openTxn
variable (f : Frame) (s : State)

@[simp] theorem openTxn_fb : (openTxn f s).fb = s.fb := rfl
@[simp] theorem openTxn_glyphRom : (openTxn f s).glyphRom = s.glyphRom := rfl
@[simp] theorem openTxn_pstate : (openTxn f s).pstate = s.pstate := rfl
@[simp] theorem openTxn_fault : (openTxn f s).fault = s.fault := rfl
@[simp] theorem openTxn_fcause : (openTxn f s).fcause = s.fcause := rfl
@[simp] theorem openTxn_fword : (openTxn f s).fword = s.fword := rfl
@[simp] theorem openTxn_initFailed : (openTxn f s).initFailed = s.initFailed := rfl
@[simp] theorem openTxn_xstat : (openTxn f s).xstat = s.xstat := rfl
@[simp] theorem openTxn_pix : (openTxn f s).pix = s.pix := rfl
@[simp] theorem openTxn_parse : (openTxn f s).parse = s.parse := rfl
@[simp] theorem openTxn_nrx : (openTxn f s).nrx = s.nrx := rfl
@[simp] theorem openTxn_hdr : (openTxn f s).hdr = s.hdr := rfl
@[simp] theorem openTxn_opnd : (openTxn f s).opnd = s.opnd := rfl
@[simp] theorem openTxn_txt : (openTxn f s).txt = s.txt := rfl
@[simp] theorem openTxn_exec : (openTxn f s).exec = s.exec := rfl
@[simp] theorem openTxn_work : (openTxn f s).work = s.work := rfl
@[simp] theorem openTxn_inFlight : (openTxn f s).inFlight = some ⟨f, 0, 0⟩ := rfl
@[simp] theorem openTxn_xpPresent : (openTxn f s).xpPresent = s.xpPresent := rfl
@[simp] theorem openTxn_host : (openTxn f s).host = s.host := rfl
@[simp] theorem openTxn_transport : (openTxn f s).transport = s.transport := rfl
@[simp] theorem openTxn_bus : (openTxn f s).bus = s.bus := rfl
@[simp] theorem openTxn_resets : (openTxn f s).resets = s.resets := rfl
@[simp] theorem openTxn_ended : (openTxn f s).ended = s.ended := rfl

end openTxn

section endBus
variable (a : Answer) (s : State)

@[simp] theorem endBus_fb : (endBus a s).fb = s.fb := rfl
@[simp] theorem endBus_glyphRom : (endBus a s).glyphRom = s.glyphRom := rfl
@[simp] theorem endBus_pstate : (endBus a s).pstate = s.pstate := rfl
@[simp] theorem endBus_fault : (endBus a s).fault = s.fault := rfl
@[simp] theorem endBus_fcause : (endBus a s).fcause = s.fcause := rfl
@[simp] theorem endBus_fword : (endBus a s).fword = s.fword := rfl
@[simp] theorem endBus_initFailed : (endBus a s).initFailed = s.initFailed := rfl
@[simp] theorem endBus_xstat : (endBus a s).xstat = a := rfl
@[simp] theorem endBus_pix : (endBus a s).pix = s.pix := rfl
@[simp] theorem endBus_parse : (endBus a s).parse = s.parse := rfl
@[simp] theorem endBus_nrx : (endBus a s).nrx = s.nrx := rfl
@[simp] theorem endBus_hdr : (endBus a s).hdr = s.hdr := rfl
@[simp] theorem endBus_opnd : (endBus a s).opnd = s.opnd := rfl
@[simp] theorem endBus_txt : (endBus a s).txt = s.txt := rfl
@[simp] theorem endBus_exec : (endBus a s).exec = false := rfl
@[simp] theorem endBus_work : (endBus a s).work = Config.freeWork s.ended := rfl
@[simp] theorem endBus_inFlight : (endBus a s).inFlight = s.inFlight := rfl
@[simp] theorem endBus_xpPresent : (endBus a s).xpPresent = s.xpPresent := rfl
@[simp] theorem endBus_host : (endBus a s).host = s.host := rfl
@[simp] theorem endBus_transport : (endBus a s).transport = s.transport := rfl
@[simp] theorem endBus_bus : (endBus a s).bus = s.bus := rfl
@[simp] theorem endBus_resets : (endBus a s).resets = s.resets := rfl
@[simp] theorem endBus_ended : (endBus a s).ended = s.ended + 1 := rfl

end endBus

section initResult
variable (a : Answer) (s : State)

@[simp] theorem initResult_fb : (initResult a s).fb = s.fb := rfl
@[simp] theorem initResult_glyphRom : (initResult a s).glyphRom = s.glyphRom := rfl
@[simp] theorem initResult_pstate : (initResult a s).pstate = if a = .ok then .on else s.pstate := rfl
@[simp] theorem initResult_fault : (initResult a s).fault = s.fault := rfl
@[simp] theorem initResult_fcause : (initResult a s).fcause = s.fcause := rfl
@[simp] theorem initResult_fword : (initResult a s).fword = s.fword := rfl
@[simp] theorem initResult_initFailed : (initResult a s).initFailed = decide (a ≠ .ok) := rfl
@[simp] theorem initResult_xstat : (initResult a s).xstat = a := rfl
@[simp] theorem initResult_pix : (initResult a s).pix = s.pix := rfl
@[simp] theorem initResult_parse : (initResult a s).parse = s.parse := rfl
@[simp] theorem initResult_nrx : (initResult a s).nrx = s.nrx := rfl
@[simp] theorem initResult_hdr : (initResult a s).hdr = s.hdr := rfl
@[simp] theorem initResult_opnd : (initResult a s).opnd = s.opnd := rfl
@[simp] theorem initResult_txt : (initResult a s).txt = s.txt := rfl
@[simp] theorem initResult_exec : (initResult a s).exec = false := rfl
@[simp] theorem initResult_work : (initResult a s).work = Config.freeWork s.ended := rfl
@[simp] theorem initResult_inFlight : (initResult a s).inFlight = s.inFlight := rfl
@[simp] theorem initResult_xpPresent : (initResult a s).xpPresent = s.xpPresent := rfl
@[simp] theorem initResult_host : (initResult a s).host = s.host := rfl
@[simp] theorem initResult_transport : (initResult a s).transport = s.transport := rfl
@[simp] theorem initResult_bus : (initResult a s).bus = s.bus := rfl
@[simp] theorem initResult_resets : (initResult a s).resets = s.resets := rfl
@[simp] theorem initResult_ended : (initResult a s).ended = s.ended + 1 := rfl

end initResult

section powerResult
variable (on : Bool) (a : Answer) (s : State)

@[simp] theorem powerResult_fb : (powerResult on a s).fb = s.fb := rfl
@[simp] theorem powerResult_glyphRom : (powerResult on a s).glyphRom = s.glyphRom := rfl
@[simp] theorem powerResult_pstate : (powerResult on a s).pstate = if a = .ok then (if on then .on else .off) else s.pstate := rfl
@[simp] theorem powerResult_fault : (powerResult on a s).fault = s.fault := rfl
@[simp] theorem powerResult_fcause : (powerResult on a s).fcause = s.fcause := rfl
@[simp] theorem powerResult_fword : (powerResult on a s).fword = s.fword := rfl
@[simp] theorem powerResult_initFailed : (powerResult on a s).initFailed = s.initFailed := rfl
@[simp] theorem powerResult_xstat : (powerResult on a s).xstat = a := rfl
@[simp] theorem powerResult_pix : (powerResult on a s).pix = s.pix := rfl
@[simp] theorem powerResult_parse : (powerResult on a s).parse = s.parse := rfl
@[simp] theorem powerResult_nrx : (powerResult on a s).nrx = s.nrx := rfl
@[simp] theorem powerResult_hdr : (powerResult on a s).hdr = s.hdr := rfl
@[simp] theorem powerResult_opnd : (powerResult on a s).opnd = s.opnd := rfl
@[simp] theorem powerResult_txt : (powerResult on a s).txt = s.txt := rfl
@[simp] theorem powerResult_exec : (powerResult on a s).exec = false := rfl
@[simp] theorem powerResult_work : (powerResult on a s).work = Config.freeWork s.ended := rfl
@[simp] theorem powerResult_inFlight : (powerResult on a s).inFlight = s.inFlight := rfl
@[simp] theorem powerResult_xpPresent : (powerResult on a s).xpPresent = s.xpPresent := rfl
@[simp] theorem powerResult_host : (powerResult on a s).host = s.host := rfl
@[simp] theorem powerResult_transport : (powerResult on a s).transport = s.transport := rfl
@[simp] theorem powerResult_bus : (powerResult on a s).bus = s.bus := rfl
@[simp] theorem powerResult_resets : (powerResult on a s).resets = s.resets := rfl
@[simp] theorem powerResult_ended : (powerResult on a s).ended = s.ended + 1 := rfl

end powerResult

end Sys2Proof.Machine
end

