-- ==== Sys2Proof/Laws/Memory.lean ====
section
/-!
SUPPORT. The laws of the byte memory and of the bit ports: a read after a write, the canonical form, and what `SetPixel` at a list of
points does to every pixel.
-/

namespace Sys2Proof.Machine

/-! ## Bytes -/

theorem Memory.read_write (m : Memory) (a b : Nat) (v : Byte) :
    (m.write a v).read b = if b = a then (m.read a).map (fun _ => v) else m.read b := by
  induction m with
  | nil => simp [Memory.write, Memory.read]
  | cons c m ih =>
    by_cases hca : c.1 = a
    · by_cases hb : b = a
      · simp [Memory.write, Memory.read, hca, hb]
      · simp [Memory.write, Memory.read, hca, hb, Ne.symm hb]
    · by_cases hb : b = a
      · simp [Memory.write, Memory.read, hca, hb] at ih ⊢; exact ih
      · simp [Memory.write, Memory.read, hca, hb] at ih ⊢; rw [ih]

theorem Memory.isSome_read_write (m : Memory) (a b : Nat) (v : Byte) :
    ((m.write a v).read b).isSome = (m.read b).isSome := by
  rw [Memory.read_write]; split
  · next h => subst h; simp
  · rfl

theorem Memory.addresses_write (m : Memory) (a : Nat) (v : Byte) :
    (m.write a v).map Prod.fst = m.map Prod.fst := by
  induction m with
  | nil => rfl
  | cons c m ih => by_cases h : c.1 = a <;> simp [Memory.write, h, ih]

theorem Memory.addresses_clear (m : Memory) : m.clear.map Prod.fst = m.map Prod.fst := by
  simp [Memory.clear, Function.comp_def]

theorem Memory.read_clear (m : Memory) (a : Nat) : m.clear.read a = (m.read a).map (fun _ => 0x00#8) := by
  induction m with
  | nil => rfl
  | cons c m ih =>
    by_cases h : c.1 = a
    · simp [Memory.clear, Memory.read, h]
    · simp [Memory.clear, Memory.read, h] at ih ⊢; exact ih

/-- The canonical form is a property of the addresses alone. -/
theorem Memory.wf_of_addresses {size : Nat} {m m' : Memory} (h : m'.map Prod.fst = m.map Prod.fst)
    (hm : m.wf size = true) : m'.wf size = true := by
  simp only [Memory.wf, beq_iff_eq] at hm ⊢; rw [h, hm]

theorem Memory.wf_write {size : Nat} {m : Memory} (a : Nat) (v : Byte) (hm : m.wf size = true) :
    (m.write a v).wf size = true :=
  Memory.wf_of_addresses (m.addresses_write a v) hm

theorem Memory.wf_clear {size : Nat} {m : Memory} (hm : m.wf size = true) : m.clear.wf size = true :=
  Memory.wf_of_addresses m.addresses_clear hm

theorem Memory.wf_tabulate (size : Nat) (f : Nat → Byte) :
    Memory.wf size ((List.range size).map fun a => (a, f a)) = true := by
  simp [Memory.wf, Function.comp_def]

theorem Memory.isSome_read_iff (m : Memory) (a : Nat) : (m.read a).isSome = true ↔ a ∈ m.map Prod.fst := by
  induction m with
  | nil => simp [Memory.read]
  | cons c m ih =>
    by_cases h : c.1 = a
    · simp [Memory.read, h]
    · simp only [Memory.read, h, if_false, List.map_cons, List.mem_cons, ih]
      constructor
      · exact fun h' => .inr h'
      · rintro (h' | h')
        · exact absurd h'.symm h
        · exact h'

/-- In the canonical form exactly the addresses of the space have a byte. -/
theorem Memory.wf_isSome {size : Nat} {m : Memory} (hm : m.wf size = true) (a : Nat) :
    (m.read a).isSome = true ↔ a < size := by
  rw [Memory.isSome_read_iff]
  simp only [Memory.wf, beq_iff_eq] at hm
  rw [hm, List.mem_range]

theorem Memory.wf_read {size : Nat} {m : Memory} (hm : m.wf size = true) {a : Nat} (ha : a < size) :
    ∃ b, m.read a = some b :=
  Option.isSome_iff_exists.mp ((Memory.wf_isSome hm a).mpr ha)

theorem Memory.read_tabulate (size : Nat) (f : Nat → Byte) (a : Nat) (ha : a < size) :
    Memory.read ((List.range size).map fun a => (a, f a)) a = some (f a) := by
  have key : ∀ l : List Nat, a ∈ l → Memory.read (l.map fun a => (a, f a)) a = some (f a) := by
    intro l
    induction l with
    | nil => simp
    | cons b l ih =>
      intro h
      by_cases hb : b = a
      · simp [Memory.read, hb]
      · simp only [List.map_cons, Memory.read, hb, if_false]
        exact ih ((List.mem_cons.mp h).resolve_left (Ne.symm hb))
  exact key _ (List.mem_range.mpr ha)

/-- Reading a range gives the bytes at its addresses in ascending order. -/
theorem Memory.readRange_eq_ok {m : Memory} {a n : Nat} {bs : List Byte} (h : m.readRange a n = .ok bs) :
    bs.length = n ∧ ∀ k, k < n → m.read (a + k) = bs[k]? := by
  induction n generalizing a bs with
  | zero =>
    simp [Memory.readRange] at h; subst h; exact ⟨rfl, by omega⟩
  | succ n ih =>
    simp only [Memory.readRange] at h
    split at h
    · simp at h
    · next b hb =>
      cases hr : Memory.readRange m (a + 1) n with
      | error e => rw [hr] at h; simp [Except.map] at h
      | ok t =>
        rw [hr] at h
        simp [Except.map] at h
        obtain ⟨hl, hread⟩ := ih hr
        subst h
        refine ⟨by simp [hl], fun k hk => ?_⟩
        cases k with
        | zero => simpa using hb
        | succ k => have := hread k (by omega); rw [show a + (k + 1) = a + 1 + k by omega]; simpa using this

/-- Reading a range of addresses that all have a byte succeeds. -/
theorem Memory.readRange_isOk {m : Memory} {a n : Nat} (h : ∀ k, k < n → (m.read (a + k)).isSome = true) :
    ∃ bs, m.readRange a n = .ok bs := by
  induction n generalizing a with
  | zero => exact ⟨[], rfl⟩
  | succ n ih =>
    obtain ⟨b, hb⟩ := Option.isSome_iff_exists.mp (h 0 (by omega))
    obtain ⟨bs, hbs⟩ := ih (a := a + 1) fun k hk => by
      have := h (k + 1) (by omega); rwa [show a + (k + 1) = a + 1 + k by omega] at this
    refine ⟨b :: bs, ?_⟩
    simp only [Nat.add_zero] at hb
    simp [Memory.readRange, hb, hbs, Except.map]

/-- In the canonical form the whole framebuffer can be read. -/
theorem Memory.wf_readRange {m : Memory} (hm : m.wf Config.fbBytes = true) :
    ∃ bs, m.readRange 0 Config.fbBytes = .ok bs :=
  Memory.readRange_isOk fun k hk => (Memory.wf_isSome hm _).mpr (by simpa using hk)

/-! ## Pixels -/

theorem inBounds_iff (x y : Int) : inBounds x y = true ↔ (0 ≤ x ∧ x < 72) ∧ 0 ≤ y ∧ y < 40 := by
  simp [inBounds]

theorem pixelAddr_lt {x y : Int} (h : inBounds x y = true) : pixelAddr x y < Config.fbBytes := by
  rw [inBounds_iff] at h; simp only [pixelAddr, Config.width, Config.fbBytes]; omega

theorem pixelBit_lt (y : Int) : pixelBit y < 8 := by simp only [pixelBit]; omega

/-- Two in-bounds pixels share their byte and their bit only if they are the same pixel (20_memory.md R51). -/
theorem pixel_eq_of_addr_bit {x y px py : Int} (h : inBounds x y = true) (hp : inBounds px py = true)
    (ha : pixelAddr px py = pixelAddr x y) (hb : pixelBit py = pixelBit y) : px = x ∧ py = y := by
  rw [inBounds_iff] at h hp; simp only [pixelAddr, pixelBit, Config.width] at ha hb; omega

theorem pixelMask_getLsbD (y : Int) (i : Nat) (hi : i < 8) :
    (pixelMask y).getLsbD i = decide (i = pixelBit y) := by
  simp only [pixelMask, BitVec.getLsbD_shiftLeft, BitVec.getLsbD_one, hi, decide_true, Bool.true_and, ← Bool.decide_and,
    ← decide_not]
  congr 1
  simp only [eq_iff_iff]
  omega

theorem setPixel_outOfBounds {x y : Int} (m : Memory) (h : inBounds x y = false) : setPixel m x y = m := by
  simp [setPixel, h]

theorem setPixel_addresses (m : Memory) (x y : Int) : (setPixel m x y).map Prod.fst = m.map Prod.fst := by
  unfold setPixel
  split
  · split
    · exact m.addresses_write _ _
    · rfl
  · rfl

theorem setPixel_isSome_read (m : Memory) (x y : Int) (a : Nat) :
    ((setPixel m x y).read a).isSome = (m.read a).isSome := by
  unfold setPixel
  split
  · split
    · exact m.isSome_read_write _ _ _
    · rfl
  · rfl

/-- The bit-set port on bytes: in bounds it ORs one bit into one byte, and leaves every other byte alone (R100). -/
theorem setPixel_read (m : Memory) {x y : Int} (h : inBounds x y = true) (a : Nat) :
    (setPixel m x y).read a
      = if a = pixelAddr x y then (m.read a).map (· ||| pixelMask y) else m.read a := by
  unfold setPixel
  rw [if_pos h]
  cases hr : m.read (pixelAddr x y) with
  | none => by_cases ha : a = pixelAddr x y <;> simp [ha, hr]
  | some b => simp only [Memory.read_write, hr]; by_cases ha : a = pixelAddr x y <;> simp [ha, hr]

/-- The bit-set port on pixels: it lights its own pixel and no other. -/
theorem setPixel_lit (m : Memory) (x y px py : Int) (hp : inBounds px py = true)
    (hm : (m.read (pixelAddr px py)).isSome = true) :
    getPixel (setPixel m x y) px py = some true
      ↔ getPixel m px py = some true ∨ (px = x ∧ py = y) := by
  cases h : inBounds x y with
  | false =>
    rw [setPixel_outOfBounds m h]
    constructor
    · exact Or.inl
    · rintro (h' | ⟨rfl, rfl⟩)
      · exact h'
      · rw [h] at hp; cases hp
  | true =>
    obtain ⟨b, hb⟩ := Option.isSome_iff_exists.mp hm
    simp only [getPixel, hp, if_true, setPixel_read m h]
    by_cases ha : pixelAddr px py = pixelAddr x y
    · rw [if_pos ha, hb]
      simp only [Option.map_some, BitVec.getLsbD_or, pixelMask_getLsbD y _ (pixelBit_lt py), Option.some.injEq,
        Bool.or_eq_true, decide_eq_true_eq]
      constructor
      · rintro (h' | h')
        · exact Or.inl h'
        · exact Or.inr (pixel_eq_of_addr_bit h hp ha h')
      · rintro (h' | ⟨_, rfl⟩)
        · exact Or.inl h'
        · exact Or.inr rfl
    · rw [if_neg ha]
      constructor
      · exact Or.inl
      · rintro (h' | ⟨rfl, rfl⟩)
        · exact h'
        · exact absurd rfl ha

@[simp] theorem setPixels_nil (m : Memory) : setPixels m [] = m := rfl

@[simp] theorem setPixels_cons (m : Memory) (p : Int × Int) (ps : List (Int × Int)) :
    setPixels m (p :: ps) = setPixels (setPixel m p.1 p.2) ps := rfl

theorem setPixels_append (m : Memory) (ps qs : List (Int × Int)) :
    setPixels m (ps ++ qs) = setPixels (setPixels m ps) qs := by
  simp [setPixels, List.foldl_append]

theorem setPixels_addresses (m : Memory) (ps : List (Int × Int)) :
    (setPixels m ps).map Prod.fst = m.map Prod.fst := by
  induction ps generalizing m with
  | nil => rfl
  | cons p ps ih => rw [setPixels_cons, ih, setPixel_addresses]

theorem setPixels_isSome_read (m : Memory) (ps : List (Int × Int)) (a : Nat) :
    ((setPixels m ps).read a).isSome = (m.read a).isSome := by
  induction ps generalizing m with
  | nil => rfl
  | cons p ps ih => rw [setPixels_cons, ih, setPixel_isSome_read]

theorem setPixels_wf {m : Memory} (ps : List (Int × Int)) {size : Nat} (hm : m.wf size = true) :
    (setPixels m ps).wf size = true :=
  Memory.wf_of_addresses (setPixels_addresses m ps) hm

/-- What `SetPixel` at a list of points does to a pixel: it is lit after if and only if it was lit before or is one of the points. -/
theorem setPixels_lit (m : Memory) (ps : List (Int × Int)) (px py : Int) (hp : inBounds px py = true)
    (hm : (m.read (pixelAddr px py)).isSome = true) :
    getPixel (setPixels m ps) px py = some true
      ↔ getPixel m px py = some true ∨ (px, py) ∈ ps := by
  induction ps generalizing m with
  | nil => simp
  | cons p ps ih =>
    rw [setPixels_cons, ih _ (by rw [setPixel_isSome_read]; exact hm), setPixel_lit m p.1 p.2 px py hp hm, or_assoc]
    have : (px = p.1 ∧ py = p.2) ↔ (px, py) = p := by rw [Prod.ext_iff]
    rw [this, List.mem_cons]

/-- Points out of bounds can be left out (20_memory.md R59, 41_drawing.md R124). -/
theorem setPixels_filter (m : Memory) (ps : List (Int × Int)) :
    setPixels m (ps.filter fun p => inBounds p.1 p.2) = setPixels m ps := by
  induction ps generalizing m with
  | nil => rfl
  | cons p ps ih =>
    cases h : inBounds p.1 p.2 with
    | true => rw [List.filter_cons_of_pos (by simpa using h), setPixels_cons, setPixels_cons, ih]
    | false => rw [List.filter_cons_of_neg (by simp [h]), setPixels_cons, setPixel_outOfBounds m h, ih]

/-! ## Draw -/

theorem draw_wf (ps : List (Int × Int)) (s : State) {size : Nat} (h : s.fb.wf size = true) :
    (draw ps s).fb.wf size = true := setPixels_wf ps h

/-! ## The fill's two point lists -/

theorem mem_intRange (a b v : Int) : v ∈ intRange a b ↔ a ≤ v ∧ v < b := by
  simp only [intRange, List.mem_map, List.mem_range]
  constructor
  · rintro ⟨k, hk, rfl⟩; omega
  · rintro ⟨h1, h2⟩; exact ⟨(v - a).toNat, by omega, by omega⟩

theorem mem_fillSpans (x y w h px py : Int) :
    (px, py) ∈ fillSpans x y w h ↔ (x ≤ px ∧ px < x + w) ∧ y ≤ py ∧ py < y + h := by
  simp only [fillSpans, List.mem_flatMap, List.mem_map, mem_intRange, Prod.mk.injEq]
  constructor
  · rintro ⟨j, hj, i, hi, rfl, rfl⟩; exact ⟨hi, hj⟩
  · rintro ⟨hi, hj⟩; exact ⟨py, hj, px, hi, rfl, rfl⟩

theorem mem_fillPoints (x y w h px py : Int) :
    (px, py) ∈ fillPoints x y w h ↔ (px, py) ∈ fillSpans x y w h ∧ inBounds px py = true := by
  rw [mem_fillSpans, inBounds_iff]
  simp only [fillPoints, List.mem_flatMap, List.mem_map, mem_intRange, Prod.mk.injEq, Config.width, Config.height]
  constructor
  · rintro ⟨j, hj, i, hi, rfl, rfl⟩; omega
  · rintro ⟨⟨hi, hj⟩, hb⟩; exact ⟨py, by omega, px, by omega, rfl, rfl⟩

theorem intRange_clip (a b c d : Int) :
    (intRange a b).filter (fun v => decide (c ≤ v) && decide (v < d)) = intRange (max a c) (min b d) := by
  have pw : ∀ a b : Int, (intRange a b).Pairwise (· < ·) := fun a b => by
    simp only [intRange, List.pairwise_map]
    exact (List.pairwise_lt_range).imp (by intro i j h; omega)
  refine (List.Perm.eq_of_pairwise (le := (· < ·)) (fun i j _ _ h1 h2 => absurd h1 (by omega)) ((pw a b).filter _) (pw _ _) ?_)
  refine (List.perm_ext_iff_of_nodup ?_ ?_).mpr fun v => ?_
  · exact ((pw a b).filter _).imp (by intro i j h; exact Int.ne_of_lt h)
  · exact (pw _ _).imp (by intro i j h; exact Int.ne_of_lt h)
  · simp only [List.mem_filter, mem_intRange, Bool.and_eq_true, decide_eq_true_eq]; omega

/-- Leaving out the rows and columns outside the screen leaves out exactly the points out of bounds, in the same order. -/
theorem fillPoints_eq_filter (x y w h : Int) :
    fillPoints x y w h = (fillSpans x y w h).filter fun p => inBounds p.1 p.2 := by
  simp only [fillPoints, fillSpans, List.filter_flatMap]
  rw [← intRange_clip y (y + h) 0 Config.height]
  induction intRange y (y + h) with
  | nil => rfl
  | cons j js ih =>
    have row : ((intRange x (x + w)).map fun i => (i, j)).filter (fun p => inBounds p.1 p.2)
        = if (decide (0 ≤ j) && decide (j < (Config.height : Int))) = true
          then (intRange (max x 0) (min (x + w) Config.width)).map fun i => (i, j) else [] := by
      rw [List.filter_map, ← intRange_clip x (x + w) 0 Config.width]
      cases hj : (decide (0 ≤ j) && decide (j < (Config.height : Int))) with
      | true =>
        rw [if_pos rfl]
        refine congrArg _ (List.filter_congr fun i _ => ?_)
        simp only [Function.comp, inBounds, hj, Bool.and_true]
      | false =>
        have : ((fun p : Int × Int => inBounds p.1 p.2) ∘ fun i => (i, j)) = fun _ => false := by
          funext i; simp only [Function.comp, inBounds, hj, Bool.and_false]
        rw [this]; simp
    rw [List.flatMap_cons, row]
    by_cases hj : (decide (0 ≤ j) && decide (j < (Config.height : Int))) = true
    · rw [List.filter_cons_of_pos (p := fun v : Int => decide (0 ≤ v) && decide (v < (Config.height : Int))) hj,
        List.flatMap_cons, if_pos hj, ih]
    · rw [List.filter_cons_of_neg (p := fun v : Int => decide (0 ≤ v) && decide (v < (Config.height : Int))) hj,
        if_neg hj, List.nil_append, ih]

/-- The fill engine may skip rows and columns outside the screen: the framebuffer comes out as from the spans of R128. -/
theorem fillPoints_draws_fillSpans (m : Memory) (x y w h : Int) :
    setPixels m (fillPoints x y w h) = setPixels m (fillSpans x y w h) := by
  rw [fillPoints_eq_filter, setPixels_filter]

theorem Memory.foldl_write_zero (l : List Nat) (m : Memory) (h : ∀ c ∈ m, c.1 ∈ l ∨ c.2 = 0x00#8)
    (hn : (m.map Prod.fst).Nodup) : l.foldl (fun m a => m.write a 0x00#8) m = m.clear := by
  induction l generalizing m with
  | nil =>
    refine (List.map_id m).symm.trans (List.map_congr_left fun c hc => ?_)
    exact Prod.ext rfl ((h c hc).resolve_left (by simp))
  | cons a l ih =>
    have hw : m.write a 0x00#8 = m.map fun c => if c.1 = a then (a, 0x00#8) else c := by
      clear ih h
      induction m with
      | nil => rfl
      | cons c m ih =>
        have hn' := List.nodup_cons.mp (by simpa using hn : (c.1 :: m.map Prod.fst).Nodup)
        by_cases hc : c.1 = a
        · have : m.map (fun c => if c.1 = a then (a, 0x00#8) else c) = m := by
            refine (List.map_congr_left fun d hd => ?_).trans (List.map_id m)
            exact if_neg fun hda => hn'.1 (by rw [hc, ← hda]; exact List.mem_map_of_mem hd)
          simp [Memory.write, hc, this]
        · simp [Memory.write, hc, ih hn'.2]
    have hclear : (m.write a 0x00#8).clear = m.clear := by
      rw [hw]; simp only [Memory.clear, List.map_map]
      refine List.map_congr_left fun c _ => ?_
      by_cases hc : c.1 = a <;> simp [hc]
    rw [List.foldl_cons, ih _ ?_ (by rw [m.addresses_write]; exact hn), hclear]
    intro c hc
    rw [hw, List.mem_map] at hc
    obtain ⟨d, hd, rfl⟩ := hc
    by_cases hda : d.1 = a
    · exact .inr (by simp [hda])
    · rw [if_neg hda]
      rcases h d hd with h' | h'
      · exact .inl ((List.mem_cons.mp h').resolve_left hda)
      · exact .inr h'

/-- CLEAR's sweep is the loop of R103: a zero byte written at each address of the framebuffer in turn. -/
theorem clear_eq_loop {m : Memory} (hm : m.wf Config.fbBytes = true) :
    (List.range Config.fbBytes).foldl (fun m a => m.write a 0x00#8) m = m.clear := by
  simp only [Memory.wf, beq_iff_eq] at hm
  refine Memory.foldl_write_zero _ m (fun c hc => .inl ?_) (hm ▸ List.nodup_range)
  rw [← hm]; exact List.mem_map_of_mem hc

end Sys2Proof.Machine
end

