-- ==== Sys2Proof/Laws/Draw.lean ====
section
/-!
SUPPORT. What drawing a list of points does to the framebuffer, in the terms of the statements; when two framebuffers are equal; the points of a text.
-/

namespace Sys2Proof.Machine

/-! ## Framebuffers are equal when their pixels are -/

/-- Two memories of the same size are equal if they read the same everywhere: the canonical form leaves no other way to differ. -/
theorem Memory.ext_of_wf {size : Nat} {m m' : Memory} (hm : m.wf size = true) (hm' : m'.wf size = true)
    (h : ∀ a, a < size → m.read a = m'.read a) : m = m' := by
  have key : ∀ m : Memory, (m.map Prod.fst).Nodup → m = (m.map Prod.fst).map fun a => (a, (m.read a).getD 0#8) := by
    intro m hn
    induction m with
    | nil => rfl
    | cons c m ih =>
      simp only [List.map_cons, List.nodup_cons] at hn ⊢
      congr 1
      · simp [Memory.read]
      · conv_lhs => rw [ih hn.2]
        refine List.map_congr_left fun a ha => ?_
        have : c.1 ≠ a := fun hca => hn.1 (hca ▸ ha)
        simp [Memory.read, this]
  simp only [Memory.wf, beq_iff_eq] at hm hm'
  rw [key m (hm ▸ List.nodup_range), key m' (hm' ▸ List.nodup_range), hm, hm']
  refine List.map_congr_left fun a ha => ?_
  rw [h a (List.mem_range.mp ha)]

/-- Bit `b` of byte `a` is the pixel of column `a mod 72` and row `8*(a div 72) + b` (20_memory.md R51). -/
theorem pixel_of_addr_bit (a b : Nat) (ha : a < 360) (hb : b < 8) :
    inBounds ((a % 72 : Nat) : Int) ((8 * (a / 72) + b : Nat) : Int) = true ∧ pixelAddr ((a % 72 : Nat) : Int) ((8 * (a / 72) + b : Nat) : Int) = a
     ∧ pixelBit ((8 * (a / 72) + b : Nat) : Int) = b := by
  rw [inBounds_iff]; simp only [pixelAddr, pixelBit, Config.width]; omega

/-- That pixel is lit exactly when the bit is set. -/
theorem lit_iff_getLsbD {m : Memory} (a b : Nat) (ha : a < 360) (hb : b < 8) (v : Byte) (hv : m.read a = some v) :
   Lit m ((a % 72 : Nat) : Int) ((8 * (a / 72) + b : Nat) : Int) ↔ v.getLsbD b = true := by
  obtain ⟨h1, h2, h3⟩ := pixel_of_addr_bit a b ha hb
  unfold Lit getPixel; rw [if_pos h1, h2, h3, hv]; simp

/-- Two framebuffers with the same lit pixels are equal. -/
theorem framebuffer_ext {m m' : Memory} (hm : m.wf 360 = true) (hm' : m'.wf 360 = true)
   (h : ∀ x y, inBounds x y = true → (Lit m x y ↔ Lit m' x y)) : m = m' := by
  refine Memory.ext_of_wf hm hm' fun a ha => ?_
  obtain ⟨v, hv⟩ := Memory.wf_read hm ha
  obtain ⟨v', hv'⟩ := Memory.wf_read hm' ha
  rw [hv, hv']; congr 1
  apply BitVec.eq_of_getLsbD_eq; intro b hb
  rw [Bool.eq_iff_iff, ← lit_iff_getLsbD a b ha hb v hv, ← lit_iff_getLsbD a b ha hb v' hv']
  exact h _ _ (pixel_of_addr_bit a b ha hb).1

/-! ## Drawing -/

/-- Setting a list of points sets exactly its in-bounds points. -/
theorem setPixels_setsExactly (m : Memory) (hm : Memory.wf 360 m = true) (ps : List (Int × Int)) (P : Int → Int → Prop)
   (h : ∀ px py, inBounds px py = true → ((px, py) ∈ ps ↔ P px py)) : SetsExactly P m (setPixels m ps) := by
  refine ⟨fun px py hb => ?_, ?_, setPixels_isSome_read m ps⟩
  · rw [Lit, setPixels_lit m ps px py hb ((Memory.wf_isSome hm _).mpr (pixelAddr_lt hb)), h px py hb]; rfl
  · intro a ha
    have : ∀ p ∈ ps, inBounds p.1 p.2 = true → pixelAddr p.1 p.2 ≠ a := fun p hp hb => ha _ _ hb ((h _ _ hb).mp hp)
    clear ha h
    induction ps generalizing m with
    | nil => rfl
    | cons p ps ih =>
      rw [setPixels_cons, ih _ (Memory.wf_of_addresses (setPixel_addresses _ _ _) hm) (fun q hq => this q (List.mem_cons_of_mem _ hq))]
      cases hb : inBounds p.1 p.2 with
      | false => rw [setPixel_outOfBounds m hb]
      | true => rw [setPixel_read m hb, if_neg (Ne.symm (this p List.mem_cons_self hb))]

/-- A drawing command leaves all but the framebuffer alone. -/
theorem draw_endedQuietly (ps : List (Int × Int)) (s : State) : EndedQuietly s (draw ps s) :=
  ⟨rfl, rfl, rfl, rfl, ⟨rfl, rfl, rfl⟩, ⟨rfl, rfl, rfl, rfl, rfl⟩, ⟨rfl, rfl, rfl, rfl, rfl, rfl⟩, rfl⟩

/-! ## Text -/

/-- The points of a text from character `i` on. -/
theorem mem_textPointsFrom (rom : Memory) (x y : Int) (t : List Byte) (i : Nat) (px py : Int) :
    (px, py) ∈ textPointsFrom rom x y i t ↔
     ∃ (j : Nat) (code : Byte) (c r : Nat) (col : Byte),
    t[j]? = some code ∧ x + 6 * ((i + j : Nat) : Int) < 72 ∧ 32 ≤ code.toNat ∧ code.toNat ≤ 126 ∧ c < 5 ∧ r < 7
      ∧ rom.read (5 * (code.toNat - 32) + c) = some col ∧ col.getLsbD r = true
      ∧ px = x + 6 * ((i + j : Nat) : Int) + (c : Int) ∧ py = y + (r : Int) := by
  induction t generalizing i with
  | nil => simp [textPointsFrom]
  | cons a t ih =>
    simp only [textPointsFrom]
    split
    · next h =>
      simp only [List.not_mem_nil, false_iff]
      rintro ⟨j, code, c, r, col, _, h2, _⟩
      simp only [Config.cellW, Config.width] at h; omega
    · next h =>
      simp only [Config.cellW, Config.width] at h
      rw [List.mem_append, ih]
      have hc : (px, py) ∈ charPoints rom a (x + i * Config.cellW) y ↔ ∃ (c r : Nat) (col : Byte), 32 ≤ a.toNat ∧ a.toNat ≤ 126 ∧ c < 5 ∧ r < 7
         ∧ rom.read (5 * (a.toNat - 32) + c) = some col ∧ col.getLsbD r = true
         ∧ px = x + 6 * (i : Int) + (c : Int) ∧ py = y + (r : Int) := by
        unfold charPoints
        split
        · next hr =>
          simp only [glyphPoints, glyphColumn, List.mem_flatMap, List.mem_map, List.mem_filter, List.mem_range, glyphBit, Config.glyphW, Config.glyphH, Config.cellW, Config.glyphFirst, Prod.mk.injEq]
          constructor
          · rintro ⟨c, hc, r, ⟨hr7, hg⟩, rfl, rfl⟩
            split at hg
            · next col hcol => exact ⟨c, r, col, hr.1, hr.2, hc, hr7, hcol, hg, by push_cast; omega, rfl⟩
            · cases hg
          · rintro ⟨c, r, col, _, _, hc, hr7, hcol, hg, rfl, rfl⟩
            exact ⟨c, hc, r, ⟨hr7, by rw [hcol]; exact hg⟩, by push_cast; omega, rfl⟩
        · next hr =>
          simp only [List.not_mem_nil, false_iff]
          rintro ⟨c, r, col, h1, h2, _⟩; exact hr ⟨h1, h2⟩
      rw [hc]
      constructor
      · rintro (⟨c, r, col, h1, h2, h3, h4, h5, h6, h7, h8⟩ | ⟨j, code, c, r, col, h0, h1, h2, h3, h4, h5, h6, h7, h8, h9⟩)
        · exact ⟨0, a, c, r, col, rfl, by push_cast at *; omega, h1, h2, h3, h4, h5, h6, by simpa using h7, h8⟩
        · exact ⟨j + 1, code, c, r, col, by simpa using h0, by push_cast at *; omega, h2, h3, h4, h5, h6, h7, by push_cast at *; omega, h9⟩
      · rintro ⟨j, code, c, r, col, h0, h1, h2, h3, h4, h5, h6, h7, h8, h9⟩
        cases j with
        | zero => simp at h0; subst h0; exact .inl ⟨c, r, col, h2, h3, h4, h5, h6, h7, by simpa using h8, h9⟩
        | succ j => exact .inr ⟨j, code, c, r, col, by simpa using h0, by push_cast at *; omega, h2, h3, h4, h5, h6, h7, by push_cast at *; omega, h9⟩

/-- The points of a text. -/
theorem mem_textPoints (rom : Memory) (x y : Int) (t : List Byte) (px py : Int) :
    (px, py) ∈ textPoints rom x y t ↔ TextPixels rom x y t px py := by
  rw [textPoints, mem_textPointsFrom]; simp [TextPixels]

end Sys2Proof.Machine
end

