-- ==== Sys2Proof/Laws/Step.lean ====
section
/-!
SUPPORT. What a step is, by its kind.
-/

namespace Sys2Proof.Machine

/-- While no command executes, or once FAULT = 1, a step is the outside's next move. -/
theorem step_host {s : State} (h : s.fault = true ∨ s.exec = false) : step s = .next (hostMove s) := by
  have : cmdReady true s = true := by
    rcases h with h | h <;> simp [cmdReady, h]
  simp [step, nextPhase, this]

/-- While a command executes, a step is the engine's: it executes the command in the latches. -/
theorem step_engine {s : State} {i : Instr} (hf : s.fault = false) (he : s.exec = true) (h : fetch s = .ok i) :
    step s = exec i s := by
  simp [step, nextPhase, cmdReady, hf, he, h]

/-- Every step is one of three kinds. -/
theorem step_cases (s : State) :
    ((s.fault = true ∨ s.exec = false) ∧ step s = .next (hostMove s))
      ∨ (s.fault = false ∧ s.exec = true ∧ ∃ i, fetch s = .ok i ∧ step s = exec i s)
      ∨ (s.fault = false ∧ s.exec = true ∧ ∃ e, fetch s = .error e ∧ step s = .next (raiseFault (headerCause e) s)) := by
  cases hf : s.fault with
  | true => exact .inl ⟨.inl rfl, step_host (.inl hf)⟩
  | false =>
    cases he : s.exec with
    | false => exact .inl ⟨.inr rfl, step_host (.inr he)⟩
    | true =>
      cases h : fetch s with
      | ok i => exact .inr (.inl ⟨rfl, rfl, i, rfl, step_engine hf he h⟩)
      | error e => exact .inr (.inr ⟨rfl, rfl, e, rfl, by simp [step, nextPhase, cmdReady, hf, he, h]⟩)

theorem hostMove_nil {s : State} (h : s.host = []) : hostMove s = s := by simp [hostMove, h]

theorem hostMove_cons {s : State} {e : HostEvent} {rest : List HostEvent} (h : s.host = e :: rest) :
    hostMove s = hostEvent e { s with host := rest } := by simp [hostMove, h]

/-- A legal header's command is the one in the latches. -/
theorem fetch_ok {s : State} {k : Header} (h : decodeHeader s.hdr = .ok k) :
    fetch s = .ok (k.build s.opnd.op1 s.opnd.op2 s.opnd.op3 s.opnd.op4 s.txt) := by simp [fetch, h]

/-- A header that passes every check is legal. -/
theorem decodeHeader_of_headerCheck {w : Word} {s : State} (h : headerCheck w s = none) : ∃ k, decodeHeader w = .ok k := by
  unfold headerCheck at h
  split at h
  · cases h
  · next k hk => exact ⟨k, hk⟩

/-- What a step that answers a next state did. -/
theorem step_next_cases {s t : State} (h : step s = .next t) :
    ((s.fault = true ∨ s.exec = false) ∧ t = hostMove s)
      ∨ (s.fault = false ∧ s.exec = true ∧ ∃ i, fetch s = .ok i ∧ exec i s = .next t)
      ∨ (s.fault = false ∧ s.exec = true ∧ ∃ e, fetch s = .error e ∧ t = raiseFault (headerCause e) s) := by
  rcases step_cases s with ⟨h1, h2⟩ | ⟨h1, h2, i, h3, h4⟩ | ⟨h1, h2, e, h3, h4⟩
  · rw [h2] at h; injection h with h; exact .inl ⟨h1, h.symm⟩
  · exact .inr (.inl ⟨h1, h2, i, h3, h4 ▸ h⟩)
  · rw [h4] at h; injection h with h; exact .inr (.inr ⟨h1, h2, e, h3, h.symm⟩)

/-- What the outside's move is. -/
theorem hostMove_cases (s : State) :
    (s.host = [] ∧ hostMove s = s)
      ∨ (∃ rest, s.host = .reset :: rest ∧ hostMove s = takeReset { s with host := rest })
      ∨ (∃ b rest, s.host = .attach b :: rest ∧ hostMove s = { s with host := rest, xpPresent := b })
      ∨ ∃ w rest, s.host = .word w :: rest ∧ hostMove s = acceptWord w { s with host := rest } := by
  cases hh : s.host with
  | nil => exact .inl ⟨rfl, hostMove_nil hh⟩
  | cons e rest =>
    rw [hostMove_cons hh]
    cases e with
    | word w => exact .inr (.inr (.inr ⟨w, rest, rfl, rfl⟩))
    | reset => exact .inr (.inl ⟨rest, rfl, rfl⟩)
    | attach b => exact .inr (.inr (.inl ⟨b, rest, rfl, rfl⟩))

/-- What accepting a word leaves alone. -/
theorem acceptWord_frame (w : Word) (s : State) :
    (acceptWord w s).fb = s.fb ∧ (acceptWord w s).glyphRom = s.glyphRom ∧ (acceptWord w s).pstate = s.pstate
      ∧ (acceptWord w s).initFailed = s.initFailed ∧ (acceptWord w s).xstat = s.xstat ∧ (acceptWord w s).pix = s.pix
      ∧ (acceptWord w s).xpPresent = s.xpPresent ∧ (acceptWord w s).host = s.host ∧ (acceptWord w s).transport = s.transport
      ∧ (acceptWord w s).bus = s.bus ∧ (acceptWord w s).inFlight = s.inFlight ∧ (acceptWord w s).resets = s.resets := by
  unfold acceptWord
  split
  · simp
  · split
    · unfold acceptHeader; dsimp only
      split
      · simp
      · split <;> simp [completeCommand]
    · unfold acceptOperand; dsimp only
      split <;> simp [completeCommand]

/-- A header's check looks at nothing of the state but PSTATE and `xp_present`. -/
theorem headerCheck_congr (w : Word) {s t : State} (hp : t.pstate = s.pstate) (hx : t.xpPresent = s.xpPresent) :
    headerCheck w t = headerCheck w s := by
  unfold headerCheck
  split
  · rfl
  · next k _ => cases k <;> simp [stateCheck, hp, hx]

/-- Every fault that a check raises has a cause. -/
theorem headerCheck_ne_none {w : Word} {s : State} {c : Cause} (h : headerCheck w s = some c) : c ≠ .none := by
  rintro rfl
  unfold headerCheck at h
  split at h
  · next e _ => cases e <;> simp [headerCause] at h
  · next k _ => cases k <;> simp only [stateCheck] at h <;> (try split_ifs at h) <;> simp at h

end Sys2Proof.Machine
end

