-- ==== Sys2Proof/Laws/Transport.lean ====
section
/-!
SUPPORT. What a transaction, a sequence of them, and a bus-facing command can do to the state.
-/

namespace Sys2Proof.Machine

/-- A transaction takes one event and leaves one record; it changes nothing else. -/
theorem transact_eq (f : Frame) (s : State) :
    transact f s = (eventEnd (nextEvent s),
      { s with transport := s.transport.tail, inFlight := none, bus := s.bus ++ [txnRecord f (nextEvent s)] }) := rfl

/-- A sequence takes events and leaves records; it changes nothing else. -/
theorem runSeq_frame (fs : List Frame) (s : State) (h : s.inFlight = none) :
    ∃ tr b, (runSeq fs s).2 = { s with transport := tr, bus := s.bus ++ b } := by
  induction fs generalizing s with
  | nil => exact ⟨s.transport, [], by simp [runSeq]⟩
  | cons f fs ih =>
    have one : (transact f s).2
        = { s with transport := s.transport.tail, bus := s.bus ++ [txnRecord f (nextEvent s)] } := by
      rw [transact_eq, h]
    rw [runSeq]
    split
    · obtain ⟨tr, b, hb⟩ := ih (transact f s).2 (by rw [one]; exact h)
      refine ⟨tr, txnRecord f (nextEvent s) :: b, ?_⟩
      rw [hb, one]; simp
    · exact ⟨_, _, one⟩
    · exact ⟨_, _, one⟩
    · exact ⟨_, _, one⟩

/-- The first transaction of a sequence: what it ends in decides whether the rest is sent. -/
theorem runSeq_cons (f : Frame) (fs : List Frame) (s : State) :
    runSeq (f :: fs) s
      = if eventEnd (nextEvent s) = .answered .ok then runSeq fs (transact f s).2 else (eventEnd (nextEvent s), (transact f s).2) := by
  rw [runSeq, show (transact f s).1 = eventEnd (nextEvent s) from rfl]
  split <;> simp_all

/-- A bus-facing command ends in its result on a state that differs only in the transport's events and the records, or in a reset. -/
theorem runBus_cases (fs : List Frame) (result : Answer → State → State) (s : State) (h : s.inFlight = none) :
    ∃ tr b, (∃ a, runBus fs result s = result a { s with transport := tr, bus := s.bus ++ b })
      ∨ runBus fs result s = takeReset { s with transport := tr, bus := s.bus ++ b } := by
  obtain ⟨tr, b, hs⟩ := runSeq_frame fs s h
  refine ⟨tr, b, ?_⟩
  unfold runBus
  rw [hs]
  split
  · next a _ => exact .inl ⟨a, rfl⟩
  · exact .inr rfl

/-- A sequence that sends anything does not depend on what was in flight before it. -/
theorem runSeq_inFlight {fs : List Frame} (h : fs ≠ []) (s : State) (o : Option OpenTxn) :
    runSeq fs { s with inFlight := o } = runSeq fs s := by
  cases fs with
  | nil => exact absurd rfl h
  | cons f fs => rw [runSeq_cons, runSeq_cons]; rfl

/-- `runBus_cases` for a sequence that sends something, whatever was in flight before it. -/
theorem runBus_cases_of_ne_nil {fs : List Frame} (hn : fs ≠ []) (result : Answer → State → State) (s : State) :
    ∃ tr b, (∃ a, runBus fs result s = result a { s with inFlight := none, transport := tr, bus := s.bus ++ b })
      ∨ runBus fs result s = takeReset { s with inFlight := none, transport := tr, bus := s.bus ++ b } := by
  have : runBus fs result s = runBus fs result { s with inFlight := none } := by
    unfold runBus; rw [runSeq_inFlight hn s none]
  rw [this]
  exact runBus_cases fs result _ rfl

/-- A transaction whose event is still to come in the state. -/
theorem nextEvent_cons {s : State} {e : XpEvent} {es : List XpEvent} (h : s.transport = e :: es) : nextEvent s = e := by
  simp [nextEvent, h]

end Sys2Proof.Machine
end

