-- ==== Sys2Proof/Laws/Exec.lean ====
section
/-!
SUPPORT. What executing a command can do to the state.
-/

namespace Sys2Proof.Machine

/-- Whatever command is executed, a next state is one of these: an ended drawing command; a fault; a reset in a transaction; the result
of INIT, UPDATE or POWER. -/
theorem exec_cases {i : Instr} {s t : State} (h : exec i s = .next t) :
    (isBusCommand i = false ∧ ∃ m p, t = finish { s with fb := m, pix := p } ∧ ((∀ x y, i ≠ .getpix x y) → p = s.pix)
        ∧ ((∃ x y, i = .getpix x y) → m = s.fb) ∧ ((i = .clear ∧ m = s.fb.clear) ∨ ∃ ps, m = setPixels s.fb ps))
      ∨ (isBusCommand i = true ∧ ∃ c, t = raiseFault c s ∧ c ≠ .none)
      ∨ (isBusCommand i = true ∧ s.xpPresent = true
          ∧ ∃ tr b, t = takeReset { s with inFlight := none, transport := tr, bus := s.bus ++ b })
      ∨ (i = .init ∧ s.pstate = .uninit
          ∧ ∃ tr b a, t = initResult a { s with inFlight := none, transport := tr, bus := s.bus ++ b })
      ∨ (i = .update ∧ s.pstate ≠ .uninit
          ∧ ∃ tr b a, t = endBus a { s with inFlight := none, transport := tr, bus := s.bus ++ b })
      ∨ (∃ on, i = .power on ∧ s.pstate ≠ .uninit
          ∧ ∃ tr b a, t = powerResult on a { s with inFlight := none, transport := tr, bus := s.bus ++ b }) := by
  have quiet : ∀ ps, t = draw ps s → ∃ m p, t = finish { s with fb := m, pix := p } ∧ p = s.pix ∧ ∃ ps, m = setPixels s.fb ps :=
    fun ps ht => ⟨_, s.pix, ht, rfl, ps, rfl⟩
  have drawn : ∀ ps, isBusCommand i = false → (∀ x y, i ≠ .getpix x y) → t = draw ps s →
      isBusCommand i = false ∧ ∃ m p, t = finish { s with fb := m, pix := p } ∧ ((∀ x y, i ≠ .getpix x y) → p = s.pix)
        ∧ ((∃ x y, i = .getpix x y) → m = s.fb) ∧ ((i = .clear ∧ m = s.fb.clear) ∨ ∃ ps, m = setPixels s.fb ps) := by
    intro ps hb hg ht
    obtain ⟨m, p, h1, h2, h3⟩ := quiet ps ht
    exact ⟨hb, m, p, h1, fun _ => h2, fun ⟨x, y, hi⟩ => absurd hi (hg x y), .inr h3⟩
  cases i with
  | clear =>
    injection h with h
    exact .inl ⟨rfl, s.fb.clear, s.pix, h.symm, fun _ => rfl, by simp, .inl ⟨rfl, rfl⟩⟩
  | pixel x y => injection h with h; exact .inl (drawn _ rfl (by simp) h.symm)
  | line x0 y0 x1 y1 => injection h with h; exact .inl (drawn _ rfl (by simp) h.symm)
  | rect x y w z => injection h with h; exact .inl (drawn _ rfl (by simp) h.symm)
  | fill x y w z => injection h with h; exact .inl (drawn _ rfl (by simp) h.symm)
  | text x y z => injection h with h; exact .inl (drawn _ rfl (by simp) h.symm)
  | textc l z => injection h with h; exact .inl (drawn _ rfl (by simp) h.symm)
  | getpix x y =>
    simp only [exec, execGetpix] at h
    split at h
    · next b _ =>
      injection h with h
      exact .inl ⟨rfl, s.fb, b, h.symm, by simp, by simp, .inr ⟨[], rfl⟩⟩
    · cases h
  | init =>
    simp only [exec, execInit] at h
    split at h
    · next c hc =>
      injection h with h
      refine .inr (.inl ⟨rfl, c, h.symm, ?_⟩)
      rintro rfl; simp only [stateCheck] at hc; split_ifs at hc <;> simp at hc
    · next hc =>
      injection h with h
      have hp : s.pstate = .uninit := by by_contra hh; simp [stateCheck, hh] at hc
      have hx : s.xpPresent = true := by by_contra hh; simp [stateCheck, hp, hh] at hc
      have hn : initSeq Config.panelOpc Config.panelParams ≠ [] := by simp [initSeq]
      obtain ⟨tr, b, ⟨a, ha⟩ | ha⟩ := runBus_cases_of_ne_nil hn initResult s
      · exact .inr (.inr (.inr (.inl ⟨rfl, hp, tr, b, a, h.symm.trans ha⟩)))
      · exact .inr (.inr (.inl ⟨rfl, hx, tr, b, h.symm.trans ha⟩))
  | update =>
    simp only [exec, execUpdate] at h
    split at h
    · next c hc =>
      injection h with h
      refine .inr (.inl ⟨rfl, c, h.symm, ?_⟩)
      rintro rfl; simp only [stateCheck] at hc; split_ifs at hc <;> simp at hc
    · next hc =>
      split at h
      · next bs _ =>
        injection h with h
        have hp : s.pstate ≠ .uninit := by intro hh; simp [stateCheck, hh] at hc
        have hx : s.xpPresent = true := by by_contra hh; simp [stateCheck, hp, hh] at hc
        have hn : updateSeq Config.panelOpc bs ≠ [] := by simp [updateSeq]
        obtain ⟨tr, b, ⟨a, ha⟩ | ha⟩ := runBus_cases_of_ne_nil hn endBus s
        · exact .inr (.inr (.inr (.inr (.inl ⟨rfl, hp, tr, b, a, h.symm.trans ha⟩))))
        · exact .inr (.inr (.inl ⟨rfl, hx, tr, b, h.symm.trans ha⟩))
      · cases h
  | power on =>
    simp only [exec, execPower] at h
    split at h
    · next c hc =>
      injection h with h
      refine .inr (.inl ⟨rfl, c, h.symm, ?_⟩)
      rintro rfl; simp only [stateCheck] at hc; split_ifs at hc <;> simp at hc
    · next hc =>
      injection h with h
      have hp : s.pstate ≠ .uninit := by intro hh; simp [stateCheck, hh] at hc
      have hx : s.xpPresent = true := by by_contra hh; simp [stateCheck, hp, hh] at hc
      have hn : powerSeq Config.panelOpc on ≠ [] := by simp [powerSeq]
      obtain ⟨tr, b, ⟨a, ha⟩ | ha⟩ := runBus_cases_of_ne_nil hn (powerResult on) s
      · exact .inr (.inr (.inr (.inr (.inr ⟨on, rfl, hp, tr, b, a, h.symm.trans ha⟩))))
      · exact .inr (.inr (.inl ⟨rfl, hx, tr, b, h.symm.trans ha⟩))

end Sys2Proof.Machine
end

