-- ==== Sys2Proof/Laws/Latch.lean ====
section
/-!
SUPPORT. What the latches hold after a command's words: the command that the decoder reads from the same words.
-/

namespace Sys2Proof.Machine

@[simp] theorem latchText_length (txt : List Byte) (len j : Nat) (w : Word) : (latchText txt len j w).length = txt.length := by
  simp only [latchText]; split <;> simp

@[simp] theorem latchOperandText_length (h : Word) (txt : List Byte) (k : Nat) (w : Word) : (latchOperandText h txt k w).length = txt.length := by
  simp only [latchOperandText]; split
  · rfl
  · split
    · exact latchText_length _ _ _ _
    · rfl

/-- TXT after a text word, within the text's length (30_encoding.md R76). -/
theorem getElem?_latchText (txt : List Byte) (len j : Nat) (w : Word) (i : Nat) (hi : i < len) (hl : len ≤ txt.length) :
    (latchText txt len j w)[i]? = if i / 2 = j then some (if i % 2 = 0 then w.lo else w.hi) else txt[i]? := by
  have hlt : i < txt.length := by omega
  simp only [latchText]
  by_cases h3 : i / 2 = j
  · rw [if_pos h3]
    by_cases h4 : i % 2 = 0
    · have h1 : i = 2 * j := by omega
      have h2 : ¬ 2 * j + 1 = i := by omega
      rw [if_pos h4]
      split
      · rw [List.getElem?_set_ne h2, h1, List.getElem?_set_self (by omega)]
      · rw [h1, List.getElem?_set_self (by omega)]
    · have h1 : i = 2 * j + 1 := by omega
      rw [if_neg h4, if_pos (by omega), h1, List.getElem?_set_self (by simp; omega)]
  · have h1 : ¬ 2 * j = i := by omega
    have h2 : ¬ 2 * j + 1 = i := by omega
    rw [if_neg h3]
    split
    · rw [List.getElem?_set_ne h2, List.getElem?_set_ne h1]
    · rw [List.getElem?_set_ne h1]

theorem latchWords_length (h : Word) (ws : List Word) : ∀ (k : Nat) (o : Opnd) (t : List Byte), (latchWords h k ws o t).2.length = t.length := by
  induction ws with
  | nil => intros; rfl
  | cons w ws ih => intro k o t; rw [latchWords, ih, latchOperandText_length]

/-- TXT after operand words `k+1, k+2, …`: byte `i` of the text comes from text word `i / 2` if that is one of them. -/
theorem getElem?_latchWords (h : Word) (fixed : Nat) (hf : textStart h = some fixed) (ws : List Word) : ∀ (k : Nat) (o : Opnd) (t : List Byte) (i : Nat), i < (auxField h).toNat → (auxField h).toNat ≤ t.length →
   (latchWords h k ws o t).2[i]? = if k ≤ fixed + i / 2 ∧ fixed + i / 2 < k + ws.length then (ws[fixed + i / 2 - k]?).map (fun w => if i % 2 = 0 then w.lo else w.hi) else t[i]? := by
  induction ws with
  | nil => intro k o t i hi hl; rw [if_neg (by simp)]; rfl
  | cons w ws ih =>
    intro k o t i hi hl
    rw [latchWords, ih _ _ _ _ hi (by rw [latchOperandText_length]; exact hl)]
    have G : (latchOperandText h t (k + 1) w)[i]? = if fixed + i / 2 = k then some (if i % 2 = 0 then w.lo else w.hi) else t[i]? := by
      simp only [latchOperandText, hf]
      split
      · rw [getElem?_latchText _ _ _ _ _ hi hl]
        by_cases h : fixed + i / 2 = k
        · rw [if_pos h, if_pos (by omega)]
        · rw [if_neg h, if_neg (by omega)]
      · rw [if_neg (by omega)]
    rw [G]
    rcases Nat.lt_trichotomy k (fixed + i / 2) with h1 | h1 | h1
    · have e : fixed + i / 2 - k = (fixed + i / 2 - (k + 1)) + 1 := by omega
      rw [e, List.getElem?_cons_succ, if_neg (c := fixed + i / 2 = k) (by omega)]
      by_cases h2 : fixed + i / 2 < k + 1 + ws.length
      · rw [if_pos ⟨h1, h2⟩, if_pos ⟨by omega, by simp only [List.length_cons]; omega⟩]
      · rw [if_neg (by omega), if_neg (by simp only [List.length_cons]; omega)]
    · rw [if_neg (by omega), if_pos h1.symm, if_pos (c := k ≤ fixed + i / 2 ∧ _) ⟨by omega, by simp only [List.length_cons]; omega⟩, ← h1]; simp
    · rw [if_neg (by omega), if_neg (by omega), if_neg (by omega)]

theorem opnd_latch_of_five_le (o : Opnd) (k : Nat) (w : Word) (h : 5 ≤ k) : o.latch k w = o := by
  unfold Opnd.latch; split <;> first | omega | rfl

theorem latchWords_opnd_of_four_le (h : Word) (ws : List Word) : ∀ (k : Nat) (o : Opnd) (t : List Byte), 4 ≤ k → (latchWords h k ws o t).1 = o := by
  induction ws with
  | nil => intros; rfl
  | cons w ws ih => intro k o t hk; rw [latchWords, ih _ _ _ (by omega), opnd_latch_of_five_le _ _ _ (by omega)]

/-- OPND after a command's operand words: the first four of them, each that is there. -/
theorem latchWords_opnd (h : Word) (ws : List Word) (o : Opnd) (t : List Byte) :
    (latchWords h 0 ws o t).1 = ⟨ws.getD 0 o.op1, ws.getD 1 o.op2, ws.getD 2 o.op3, ws.getD 3 o.op4⟩ := by
  match ws with
  | [] => rfl
  | [a] => rfl
  | [a, b] => rfl
  | [a, b, c] => rfl
  | a :: b :: c :: d :: ws =>
    simp only [latchWords]; rw [latchWords_opnd_of_four_le _ _ _ _ _ (by omega)]; rfl

/-- The command in the latches after a legal header and its operand words is the one the decoder builds from them. -/
theorem build_latchWords (h : Word) (k : Header) (ops : List Word) (o : Opnd) (t : List Byte) (hk : decodeHeader h = .ok k) (hl : ops.length = cmdLen h - 1) (ht : t.length = 255) :
    k.build (latchWords h 0 ops o t).1.op1 (latchWords h 0 ops o t).1.op2 (latchWords h 0 ops o t).1.op3 (latchWords h 0 ops o t).1.op4 (latchWords h 0 ops o t).2 = buildFromWords h k ops := by
  rw [latchWords_opnd]
  have aux255 : (auxField h).toNat ≤ 255 := by have := (auxField h).isLt; omega
  have tx : ∀ fixed, textStart h = some fixed → ops.length = fixed + ceilHalf (auxField h).toNat →
     (latchWords h 0 ops o t).2.take (auxField h).toNat = (unpackText (ops.drop fixed)).take (auxField h).toNat := by
    intro fixed hf hlen
    apply List.ext_getElem?
    intro i
    by_cases hi : i < (auxField h).toNat
    · rw [List.getElem?_take_of_lt hi, List.getElem?_take_of_lt hi, getElem?_latchWords h fixed hf _ _ _ _ _ hi (by omega), getElem?_unpackText]
      rw [if_pos ⟨by omega, by rw [hlen]; simp [ceilHalf]; omega⟩]; simp
    · simp [hi]
  have hh := eq_headerWordOf hk
  have hlen : ops.length = cmdLen (headerWordOf k) - 1 := hh ▸ hl
  have hts : textStart h = textStart (headerWordOf k) := by rw [← hh]
  rw [cmdLen_headerWordOf] at hlen; rw [textStart_headerWordOf] at hts
  cases k with
  | clear => rfl
  | init => rfl
  | update => rfl
  | power on => rfl
  | pixel => match ops, hlen with | [a, b], _ => rfl
  | getpix => match ops, hlen with | [a, b], _ => rfl
  | line => match ops, hlen with | [a, b, c, d], _ => rfl
  | rect => match ops, hlen with | [a, b, c, d], _ => rfl
  | fill => match ops, hlen with | [a, b, c, d], _ => rfl
  | text len =>
    have ha : auxField h = len := by rw [hh]; exact auxField_headerWord _ _
    subst ha
    dsimp only at hlen hts
    simp only [Header.build, buildFromWords, hts, Option.getD_some]
    rw [tx 2 hts (by omega)]
    match ops, hlen with
    | a :: b :: r, _ => rfl
    | [], h => simp at h; omega
    | [_], h => simp at h; omega
  | textc len =>
    have ha : auxField h = len := by rw [hh]; exact auxField_headerWord _ _
    subst ha
    dsimp only at hlen hts
    simp only [Header.build, buildFromWords, hts, Option.getD_some]
    rw [tx 1 hts (by omega)]
    match ops, hlen with
    | a :: r, _ => rfl
    | [], h => simp at h; omega

end Sys2Proof.Machine
end

