-- ==== Sys2Proof/Laws/Line.lean ====
section
/-!
SUPPORT. The line engine's loop (41_drawing.md R121): its registers after `k` iterations, and its points as a list over `k`.
-/

namespace Sys2Proof.Machine

theorem absInt_eq (v : Int) : absInt v = |v| := by simp [absInt]

theorem signInt_eq (v : Int) : signInt v = v.sign := by
  unfold signInt; split
  · next h => exact (Int.sign_eq_neg_one_of_neg h).symm
  · split
    · next h => subst h; rfl
    · next h1 h2 => exact (Int.sign_eq_one_of_pos (by omega)).symm

theorem signInt_mul_absInt (v : Int) : signInt v * absInt v = v := by
  rw [signInt_eq, absInt_eq]; exact Int.sign_mul_abs v

/-- The registers after one more iteration. -/
theorem lineStep_iterate_succ (k : Nat) (r : LineRegs) : lineStep^[k + 1] r = lineStep (lineStep^[k] r) :=
  Function.iterate_succ_apply' lineStep k r

/-- One iteration in which x moves. -/
theorem lineStep_of_x {r : LineRegs} (h : -r.dy < 2 * r.err) :
    lineStep r = if 2 * r.err < r.dx then { r with x := r.x + r.sx, y := r.y + r.sy, err := r.err - r.dy + r.dx }
      else { r with x := r.x + r.sx, err := r.err - r.dy } := by
  simp only [lineStep, lineStepX, lineStepY, gt_iff_lt, if_pos h]

/-- One iteration in which y moves. -/
theorem lineStep_of_y {r : LineRegs} (h : 2 * r.err < r.dx) :
    lineStep r = if -r.dy < 2 * r.err then { r with x := r.x + r.sx, y := r.y + r.sy, err := r.err - r.dy + r.dx }
      else { r with y := r.y + r.sy, err := r.err + r.dx } := by
  unfold lineStep lineStepX lineStepY
  by_cases hx : -r.dy < 2 * r.err
  · simp only [gt_iff_lt, if_pos hx, if_pos h]
  · simp only [gt_iff_lt, if_neg hx, if_pos h]

/-- The line is no higher than wide: after `k ≤ dx` iterations x has moved `k` times and y some `j` times; between these bounds of the error
term the x update fires in every iteration. -/
theorem lineStep_iterate_wide (x0 y0 x1 y1 : Int) (hw : absInt (y1 - y0) ≤ absInt (x1 - x0)) (hpos : 0 < absInt (x1 - x0)) (k : Nat) :
    ∃ j : Nat, lineStep^[k] (lineStart x0 y0 x1 y1) =
        { lineStart x0 y0 x1 y1 with
          x := x0 + signInt (x1 - x0) * k
          y := y0 + signInt (y1 - y0) * j
          err := absInt (x1 - x0) - absInt (y1 - y0) - k * absInt (y1 - y0) + j * absInt (x1 - x0) }
      ∧ -absInt (y1 - y0) < 2 * (absInt (x1 - x0) - absInt (y1 - y0) - k * absInt (y1 - y0) + j * absInt (x1 - x0))
      ∧ 2 * (absInt (x1 - x0) - absInt (y1 - y0) - k * absInt (y1 - y0) + j * absInt (x1 - x0))
          < 3 * absInt (x1 - x0) - 2 * absInt (y1 - y0) := by
  have h0 : 0 ≤ absInt (y1 - y0) := Int.natCast_nonneg _
  induction k with
  | zero => exact ⟨0, by simp [lineStart], by simp; omega, by simp; omega⟩
  | succ k ih =>
    obtain ⟨j, hr, hlo, hhi⟩ := ih
    rw [lineStep_iterate_succ, hr]
    generalize hE : absInt (x1 - x0) - absInt (y1 - y0) - k * absInt (y1 - y0) + j * absInt (x1 - x0) = e at hlo hhi ⊢
    rw [lineStep_of_x (by exact hlo)]
    by_cases hy : 2 * e < absInt (x1 - x0)
    · have hE' : absInt (x1 - x0) - absInt (y1 - y0) - ((k + 1 : Nat) : Int) * absInt (y1 - y0) + ((j + 1 : Nat) : Int) * absInt (x1 - x0)
          = e - absInt (y1 - y0) + absInt (x1 - x0) := by push_cast; rw [← hE]; ring
      refine ⟨j + 1, ?_, ?_, ?_⟩
      · rw [if_pos (by exact hy), hE']; simp only [lineStart, LineRegs.mk.injEq, and_true]
        constructor <;> push_cast <;> ring
      · rw [hE']; omega
      · rw [hE']; omega
    · have hE' : absInt (x1 - x0) - absInt (y1 - y0) - ((k + 1 : Nat) : Int) * absInt (y1 - y0) + (j : Int) * absInt (x1 - x0)
          = e - absInt (y1 - y0) := by push_cast; rw [← hE]; ring
      refine ⟨j, ?_, ?_, ?_⟩
      · rw [if_neg (by exact hy), hE']; simp only [lineStart, LineRegs.mk.injEq, and_true]
        push_cast; ring
      · rw [hE']; omega
      · rw [hE']; omega

/-- The line is higher than wide: after `k ≤ dy` iterations y has moved `k` times and x some `j` times; between these bounds of the error
term the y update fires in every iteration. -/
theorem lineStep_iterate_high (x0 y0 x1 y1 : Int) (hw : absInt (x1 - x0) < absInt (y1 - y0)) (k : Nat) :
    ∃ j : Nat, lineStep^[k] (lineStart x0 y0 x1 y1) =
        { lineStart x0 y0 x1 y1 with
          x := x0 + signInt (x1 - x0) * j
          y := y0 + signInt (y1 - y0) * k
          err := absInt (x1 - x0) - absInt (y1 - y0) - j * absInt (y1 - y0) + k * absInt (x1 - x0) }
      ∧ 2 * absInt (x1 - x0) - 3 * absInt (y1 - y0)
          < 2 * (absInt (x1 - x0) - absInt (y1 - y0) - j * absInt (y1 - y0) + k * absInt (x1 - x0))
      ∧ 2 * (absInt (x1 - x0) - absInt (y1 - y0) - j * absInt (y1 - y0) + k * absInt (x1 - x0)) < absInt (x1 - x0) := by
  have h0 : 0 ≤ absInt (x1 - x0) := Int.natCast_nonneg _
  induction k with
  | zero => exact ⟨0, by simp [lineStart], by simp; omega, by simp; omega⟩
  | succ k ih =>
    obtain ⟨j, hr, hlo, hhi⟩ := ih
    rw [lineStep_iterate_succ, hr]
    generalize hE : absInt (x1 - x0) - absInt (y1 - y0) - j * absInt (y1 - y0) + k * absInt (x1 - x0) = e at hlo hhi ⊢
    rw [lineStep_of_y (by exact hhi)]
    by_cases hx : -absInt (y1 - y0) < 2 * e
    · have hE' : absInt (x1 - x0) - absInt (y1 - y0) - ((j + 1 : Nat) : Int) * absInt (y1 - y0) + ((k + 1 : Nat) : Int) * absInt (x1 - x0)
          = e - absInt (y1 - y0) + absInt (x1 - x0) := by push_cast; rw [← hE]; ring
      refine ⟨j + 1, ?_, ?_, ?_⟩
      · rw [if_pos (by exact hx), hE']; simp only [lineStart, LineRegs.mk.injEq, and_true]
        constructor <;> push_cast <;> ring
      · rw [hE']; omega
      · rw [hE']; omega
    · have hE' : absInt (x1 - x0) - absInt (y1 - y0) - (j : Int) * absInt (y1 - y0) + ((k + 1 : Nat) : Int) * absInt (x1 - x0)
          = e + absInt (x1 - x0) := by push_cast; rw [← hE]; ring
      refine ⟨j, ?_, ?_, ?_⟩
      · rw [if_neg (by exact hx), hE']; simp only [lineStart, LineRegs.mk.injEq, and_true, true_and]
        push_cast; ring
      · rw [hE']; omega
      · rw [hE']; omega

/-- The loop's points, where the end test holds first after `m` iterations. -/
theorem lineWalk_eq_map (x1 y1 : Int) (m : Nat) (r : LineRegs)
    (hend : (lineStep^[m] r).x = x1 ∧ (lineStep^[m] r).y = y1)
    (hgo : ∀ k, k < m → ¬ ((lineStep^[k] r).x = x1 ∧ (lineStep^[k] r).y = y1)) :
    lineWalk (m + 1) x1 y1 r = (List.range (m + 1)).map fun k => ((lineStep^[k] r).x, (lineStep^[k] r).y) := by
  induction m generalizing r with
  | zero => rw [lineWalk, if_pos (c := r.x = x1 ∧ r.y = y1) hend]; rfl
  | succ m ih =>
    rw [lineWalk, if_neg (c := r.x = x1 ∧ r.y = y1) (hgo 0 (Nat.zero_lt_succ m)), List.range_succ_eq_map, List.map_cons, List.map_map]
    rw [ih (lineStep r) hend fun k hk => hgo (k + 1) (Nat.succ_lt_succ hk)]
    rfl

/-- The last iteration but for the end test leaves the engine at the last endpoint, and none before it does. -/
theorem lineStep_iterate_end (x0 y0 x1 y1 : Int) :
    ((lineStep^[(max (absInt (x1 - x0)) (absInt (y1 - y0))).toNat] (lineStart x0 y0 x1 y1)).x = x1
        ∧ (lineStep^[(max (absInt (x1 - x0)) (absInt (y1 - y0))).toNat] (lineStart x0 y0 x1 y1)).y = y1)
      ∧ ∀ k, k < (max (absInt (x1 - x0)) (absInt (y1 - y0))).toNat →
        ¬ ((lineStep^[k] (lineStart x0 y0 x1 y1)).x = x1 ∧ (lineStep^[k] (lineStart x0 y0 x1 y1)).y = y1) := by
  have hxs := signInt_mul_absInt (x1 - x0)
  have hys := signInt_mul_absInt (y1 - y0)
  have hx0 : 0 ≤ absInt (x1 - x0) := Int.natCast_nonneg _
  have hy0 : 0 ≤ absInt (y1 - y0) := Int.natCast_nonneg _
  -- a moved coordinate is not yet the last
  have early : ∀ (d : Int) (k : Nat), (k : Int) < absInt d → signInt d * k ≠ d := by
    intro d k hk h
    have hd : signInt d ≠ 0 := by
      intro h0; rw [h0, Int.zero_mul] at h; subst h; simp [absInt] at hk; omega
    have : signInt d * k = signInt d * absInt d := h.trans (signInt_mul_absInt d).symm
    exact absurd (mul_left_cancel₀ hd this) (by omega)
  by_cases hw : absInt (y1 - y0) ≤ absInt (x1 - x0)
  · rw [max_eq_left hw]
    rcases hx0.lt_or_eq with hpos | hz
    · refine ⟨?_, fun k hk h => ?_⟩
      · obtain ⟨j, hr, hlo, hhi⟩ := lineStep_iterate_wide x0 y0 x1 y1 hw hpos (absInt (x1 - x0)).toNat
        rw [hr]
        rw [Int.toNat_of_nonneg hx0] at hlo hhi ⊢
        have hj : (j : Int) = absInt (y1 - y0) := by
          have h1 : absInt (x1 - x0) - absInt (y1 - y0) - absInt (x1 - x0) * absInt (y1 - y0) + j * absInt (x1 - x0)
            = absInt (x1 - x0) * (1 - absInt (y1 - y0) + j) - absInt (y1 - y0) := by ring
          rw [h1] at hlo hhi
          have q1 : 0 < 1 - absInt (y1 - y0) + j := by by_contra hq; nlinarith
          have q2 : 1 - absInt (y1 - y0) + j < 2 := by by_contra hq; nlinarith
          omega
        exact ⟨by simp only; rw [hxs]; omega, by simp only; rw [hj, hys]; omega⟩
      · obtain ⟨j, hr, -, -⟩ := lineStep_iterate_wide x0 y0 x1 y1 hw hpos k
        rw [hr] at h
        exact early (x1 - x0) k (by omega) (by have := h.1; simp only at this; omega)
    · have h1 : x1 = x0 := by simp only [absInt] at hz; omega
      have h2 : y1 = y0 := by simp only [absInt] at hz hw; omega
      subst h1 h2
      exact ⟨by simp [absInt, lineStart], fun k hk => by simp [absInt] at hk⟩
  · have hw : absInt (x1 - x0) < absInt (y1 - y0) := by omega
    rw [max_eq_right hw.le]
    refine ⟨?_, fun k hk h => ?_⟩
    · obtain ⟨j, hr, hlo, hhi⟩ := lineStep_iterate_high x0 y0 x1 y1 hw (absInt (y1 - y0)).toNat
      rw [hr]
      rw [Int.toNat_of_nonneg hy0] at hlo hhi ⊢
      have hj : (j : Int) = absInt (x1 - x0) := by
        have h1 : absInt (x1 - x0) - absInt (y1 - y0) - j * absInt (y1 - y0) + absInt (y1 - y0) * absInt (x1 - x0)
          = absInt (x1 - x0) - absInt (y1 - y0) * (1 - absInt (x1 - x0) + j) := by ring
        rw [h1] at hlo hhi
        have q1 : 0 < 1 - absInt (x1 - x0) + j := by by_contra hq; nlinarith
        have q2 : 1 - absInt (x1 - x0) + j < 2 := by by_contra hq; nlinarith
        omega
      exact ⟨by simp only; rw [hj, hxs]; omega, by simp only; rw [hys]; omega⟩
    · obtain ⟨j, hr, -, -⟩ := lineStep_iterate_high x0 y0 x1 y1 hw k
      rw [hr] at h
      exact early (y1 - y0) k (by omega) (by have := h.2; simp only at this; omega)

/-- The points of a line: the engine's position after 0, 1, …, `max dx dy` iterations. -/
theorem linePoints_eq_map (x0 y0 x1 y1 : Int) :
    linePoints x0 y0 x1 y1 = (List.range ((max (absInt (x1 - x0)) (absInt (y1 - y0))).toNat + 1)).map
      fun k => ((lineStep^[k] (lineStart x0 y0 x1 y1)).x, (lineStep^[k] (lineStart x0 y0 x1 y1)).y) :=
  lineWalk_eq_map x1 y1 _ _ (lineStep_iterate_end x0 y0 x1 y1).1 (lineStep_iterate_end x0 y0 x1 y1).2

end Sys2Proof.Machine
end

