-- ==== Sys2Proof/Laws/PerInstr.lean ====
section
/-!
SUPPORT. A fact about every command as syntax, one lemma per constructor: the words the encoder emits are as many as the length that its
header says (30_encoding.md R74).
-/

namespace Sys2Proof.Laws.EncodedLength

/-- A well-formed command's words are as many as LEN of its header, and there is at least one. -/
def Statement (i : Instr) : Prop :=
  i.wellFormed = true → (encode i).length = cmdLen ((encode i).headD 0#16) ∧ 1 ≤ (encode i).length

theorem clear : Statement .clear := fun _ => by decide
theorem pixel (x y : Word) : Statement (.pixel x y) := fun _ => by simp [encode, cmdLen]
theorem line (x0 y0 x1 y1 : Word) : Statement (.line x0 y0 x1 y1) := fun _ => by simp [encode, cmdLen]
theorem rect (x y w h : Word) : Statement (.rect x y w h) := fun _ => by simp [encode, cmdLen]
theorem fill (x y w h : Word) : Statement (.fill x y w h) := fun _ => by simp [encode, cmdLen]
theorem text (x y : Word) (t : List Byte) : Statement (.text x y t) := fun h => by
  have hl := lenAux_toNat (t := t) (by simpa [Instr.wellFormed] using h)
  simp [encode, cmdLen, hl, packText_length]; omega
theorem textc (l : Word) (t : List Byte) : Statement (.textc l t) := fun h => by
  have hl := lenAux_toNat (t := t) (by simpa [Instr.wellFormed] using h)
  simp [encode, cmdLen, hl, packText_length]; omega
theorem getpix (x y : Word) : Statement (.getpix x y) := fun _ => by simp [encode, cmdLen]
theorem init : Statement .init := fun _ => by decide
theorem update : Statement .update := fun _ => by decide
theorem power (on : Bool) : Statement (.power on) := fun _ => by cases on <;> decide

end Sys2Proof.Laws.EncodedLength
end

