-- ==== Sys2Proof/Tests/Slice0.lean ====
section
/-!
SUPPORT. The model's own tests. Expected results come from the spec: 95_test_vectors.md (its row or section is named), 30_encoding.md R71–R83, or
the rule named. The second part shows, for each statement with hypotheses, values that meet all of them.
-/

namespace Sys2Proof.Tests

open Sys2Proof.Machine

/-! ## Helpers -/

/-- A framebuffer of zeros: "from CLEAR" (95_test_vectors.md). -/
def zeroFb : Memory := (List.range 360).map fun a => (a, 0x00#8)

/-- A LUT with the illustrative glyphs 'A' and 'B' of 93_implementation_defined.md G6 and blanks elsewhere. -/
def lut : Memory := (List.range 475).map fun a =>
  (a, [0x7C#8, 0x12#8, 0x11#8, 0x12#8, 0x7C#8, 0x7F#8, 0x49#8, 0x49#8, 0x49#8, 0x36#8].getD (a - 165) 0x00#8)

/-- The reset state with that framebuffer and that LUT. -/
def clean : State := { State.reset with fb := zeroFb, glyphRom := lut }

/-- The framebuffer bytes that are not zero after a command. -/
def litCells (o : Host.Outcome State Fault Refusal) : List Host.Cell :=
  match o with
  | .next t => t.fb.filter fun c => c.2 != 0x00#8
  | .fault _ => []
  | .refused _ => []

/-- A register after a command. -/
def regAfter (a : BitVec 3) (o : Host.Outcome State Fault Refusal) : Option Word :=
  match o with
  | .next t => some (regRead t a)
  | .fault _ => none
  | .refused _ => none

/-- `n` steps. -/
def stepN : Nat → State → State
  | 0, s => s
  | n + 1, s =>
    match step s with
    | .next t => stepN n t
    | .fault _ => s
    | .refused _ => s

/-- The words are offered, and that many steps are taken. -/
def pushed (ws : List Word) (s : State) : State := stepN ws.length { s with host := ws.map .word }

/-- An answer OK, all bytes moved. -/
def ok : XpEvent := ⟨400, .answer 0 false⟩
/-- An answer ERROR. -/
def err : XpEvent := ⟨400, .answer 0 true⟩
/-- No answer. -/
def silent : XpEvent := ⟨400, .silent⟩
/-- A reset before the last byte has moved. -/
def resetEvent : XpEvent := ⟨1, .reset⟩

theorem eventEnd_ok : eventEnd ok = .answered .ok := by simp [eventEnd, ok]
theorem eventEnd_err : eventEnd err = .answered .error := by simp [eventEnd, err]
theorem allOk_replicate (n : Nat) : AllOk (List.replicate n ok) := by
  intro e he; rw [List.eq_of_mem_replicate he]; exact eventEnd_ok

/-! ## Well-formedness: an ill-formed command for each check (30_encoding.md R76) -/

theorem test_text_256_refused : (Instr.text 0#16 0#16 (List.replicate 256 0x41#8)).wellFormed = false := by decide +kernel
theorem test_textc_256_refused : (Instr.textc 0#16 (List.replicate 256 0x41#8)).wellFormed = false := by decide +kernel
theorem test_text_255_allowed : (Instr.text 0#16 0#16 (List.replicate 255 0x41#8)).wellFormed = true := by decide +kernel

/-! ## Decoding: words written out bit by bit, AUX then OPC (30_encoding.md R71, R73, R75) -/

theorem test_decode_clear : decode [0b00000000_00000001#16] = .ok (.clear, []) := by decide
theorem test_decode_pixel :
    decode [0b00000000_00000010#16, 0b00000000_00000101#16, 0b11111111_11110110#16] = .ok (.pixel 5#16 0xFFF6#16, []) := by decide
theorem test_decode_line :
    decode [0b00000000_00000011#16, 1#16, 2#16, 3#16, 0b10000000_00000000#16] = .ok (.line 1#16 2#16 3#16 0x8000#16, []) := by decide
theorem test_decode_rect :
    decode [0b00000000_00000100#16, 1#16, 2#16, 3#16, 4#16] = .ok (.rect 1#16 2#16 3#16 4#16, []) := by decide
theorem test_decode_fill :
    decode [0b00000000_00000101#16, 1#16, 2#16, 3#16, 4#16] = .ok (.fill 1#16 2#16 3#16 4#16, []) := by decide
/-- The padding byte 0xFF is not looked at; the word after the command stays (95_test_vectors.md 2.1). -/
theorem test_decode_text :
    decode [0b00000011_00000110#16, 7#16, 8#16, 0b01100010_01100001#16, 0b11111111_01100011#16, 0x0001#16]
      = .ok (.text 7#16 8#16 [0x61#8, 0x62#8, 0x63#8], [0x0001#16]) := by decide
theorem test_decode_textc :
    decode [0b00000010_00000111#16, 1#16, 0b01000010_01000001#16] = .ok (.textc 1#16 [0x41#8, 0x42#8], []) := by decide
theorem test_decode_getpix : decode [0b00000000_00001000#16, 3#16, 12#16] = .ok (.getpix 3#16 12#16, []) := by decide
theorem test_decode_init : decode [0b00000000_00010000#16] = .ok (.init, []) := by decide
theorem test_decode_update : decode [0b00000000_00010001#16] = .ok (.update, []) := by decide
theorem test_decode_power_on : decode [0b00000001_00010010#16] = .ok (.power true, []) := by decide
theorem test_decode_power_off : decode [0b00000000_00010010#16] = .ok (.power false, []) := by decide

/-- 95_test_vectors.md 2.1: headers that are rejected, with the check that rejects them. -/
theorem test_rejected_headers :
    [0x0000#16, 0x0009#16, 0x000F#16, 0x0013#16, 0x0113#16, 0x00FF#16, 0x0101#16, 0x0212#16, 0x0312#16].map decodeHeader
      = List.replicate 6 (.error .illegalOpcode) ++ List.replicate 3 (.error .reservedAux) := by decide

/-- 95_test_vectors.md 2.1: lengths. -/
theorem test_lengths : [0x0001#16, 0x0006#16, 0x0106#16, 0xFF06#16, 0x0007#16, 0xFF07#16, 0x0112#16].map cmdLen
    = [1, 3, 4, 131, 2, 130, 1] := by decide

theorem test_truncated : decode [0x0002#16, 5#16] = .error .truncated := by decide

/-- 95_test_vectors.md 2.1: operand decoding. -/
theorem test_operands : [0x0000#16, 0x7FFF#16, 0x8000#16, 0xFFFF#16, 0xFFF6#16].map sext16 = [0, 32767, -32768, -1, -10] := by decide

/-- One placed table word of a command of five words, its operand words zero (opcode_table.json). -/
theorem test_table_word : decodeTableWord 16 0x0003 = some (.line 0#16 0#16 0#16 0#16) := by decide
theorem test_table_words : decodeTableWord 48 0x000C00030008 = some (.getpix 3#16 12#16) := by decide

/-! ## Framebuffer commands (95_test_vectors.md 2.2) -/

theorem test_pixel_corner : litCells (exec (.pixel 71#16 39#16) clean) = [(359, 0x80#8)] := by decide +kernel
theorem test_pixel_out : [exec (.pixel 72#16 0#16) clean, exec (.pixel 0xFFFF#16 0#16) clean, exec (.pixel 0#16 40#16) clean,
    exec (.pixel 0#16 0xFFFF#16) clean, exec (.pixel 3#16 12#16) clean].map litCells = [[], [], [], [], [(75, 0x10#8)]] := by decide
theorem test_clear : litCells (exec .clear { clean with fb := setPixel zeroFb 0 0 }) = [] := by decide
theorem test_getpix : [exec (.getpix 3#16 12#16) { clean with fb := setPixel zeroFb 3 12 },
    exec (.getpix 3#16 13#16) { clean with fb := setPixel zeroFb 3 12 },
    exec (.getpix 0xFFFF#16 12#16) { clean with fb := setPixel zeroFb 3 12, pix := true }].map (regAfter 1#3)
      = [some 1#16, some 0#16, some 0#16] := by decide

/-! ## Drawing (95_test_vectors.md 2.3–2.5) -/

theorem test_line_order : linePoints 2 3 (-1) (-5)
    = [(2, 3), (2, 2), (1, 1), (1, 0), (1, -1), (0, -2), (0, -3), (-1, -4), (-1, -5)] := by decide
/-- Rows `LINE 0, 0, 1, 2` and `LINE 0, 0, 2, 5`. -/
theorem test_line_tie : linePoints 0 0 1 2 = [(0, 0), (0, 1), (1, 2)]
    ∧ linePoints 0 0 2 5 = [(0, 0), (0, 1), (1, 2), (1, 3), (2, 4), (2, 5)] := by decide
theorem test_line_clipped : litCells (exec (.line 70#16 38#16 75#16 41#16) clean) = [(358, 0x40#8), (359, 0x80#8)] := by decide +kernel
theorem test_rect_mirrored : litCells (exec (.rect 4#16 4#16 0xFFFC#16 0xFFFC#16) clean)
    = [(0, 0x1F#8), (1, 0x11#8), (2, 0x11#8), (3, 0x11#8), (4, 0x1F#8)] := by decide +kernel
theorem test_rect_off_screen : litCells (exec (.rect 68#16 36#16 10#16 10#16) clean)
    = [(356, 0xF0#8), (357, 0x10#8), (358, 0x10#8), (359, 0x10#8)] := by decide +kernel
theorem test_fill_pages : litCells (exec (.fill 70#16 3#16 5#16 10#16) clean)
    = [(70, 0xF8#8), (71, 0xF8#8), (142, 0x1F#8), (143, 0x1F#8)] := by decide +kernel
theorem test_fill_negative : [exec (.fill 5#16 5#16 0xFFFD#16 3#16) clean, exec (.fill 0#16 0#16 0#16 5#16) clean,
    exec (.fill 0xFFFE#16 0xFFFE#16 4#16 4#16) clean].map litCells = [[], [], [(0, 0x03#8), (1, 0x03#8)]] := by decide

/-! ## Text (95_test_vectors.md 2.6) -/

theorem test_text_skips_a_cell : litCells (exec (.text 0#16 0#16 [0x41#8, 0x00#8, 0x42#8]) clean)
    = [(0, 0x7C#8), (1, 0x12#8), (2, 0x11#8), (3, 0x12#8), (4, 0x7C#8)]
      ++ [(12, 0x7F#8), (13, 0x49#8), (14, 0x49#8), (15, 0x49#8), (16, 0x36#8)] := by decide +kernel
theorem test_text_left_edge : litCells (exec (.text 0xFFFD#16 0#16 [0x41#8, 0x42#8]) clean)
    = [(0, 0x12#8), (1, 0x7C#8), (3, 0x7F#8), (4, 0x49#8), (5, 0x49#8), (6, 0x49#8), (7, 0x36#8)] := by decide +kernel
theorem test_textc : litCells (exec (.textc 1#16 [0x41#8]) clean)
    = [(105, 0xF0#8), (106, 0x48#8), (107, 0x44#8), (108, 0x48#8), (109, 0xF0#8), (177, 0x01#8), (181, 0x01#8)] := by decide +kernel
/-- S12. -/
theorem test_centre : [0, 1, 2, 11, 12, 13, 255].map centreX = [36, 33, 30, 3, 0, 0, 0] ∧ centreY 3 = 30 ∧ centreY (-1) = -10 := by decide

/-! ## The sequencer (95_test_vectors.md 2.7) -/

/-- Row 1, with the instantiation of R183 and any parameter bytes. -/
theorem test_init_transcript (q : PanelParams) : (initSeq ssd1306Opc q).map Frame.bytes =
    [[0x00#8, 0xAE#8], [0x00#8, 0xD5#8, q.clkDiv], [0x00#8, 0xA8#8, 0x27#8], [0x00#8, 0xD3#8, 0x00#8], [0x00#8, 0x40#8],
     [0x00#8, 0x8D#8, 0x14#8], [0x00#8, 0x20#8, 0x00#8], [0x00#8, 0xA1#8]]
    ++ [[0x00#8, 0xC8#8], [0x00#8, 0xDA#8, q.comPins], [0x00#8, 0x81#8, q.contrast], [0x00#8, 0xD9#8, q.precharge],
     [0x00#8, 0xDB#8, q.vcomh], [0x00#8, 0xA4#8], [0x00#8, 0xA6#8], [0x00#8, 0xAF#8]] := rfl

/-- S10: the window, and the control byte of the data. -/
theorem test_update_transcript : (updateSeq ssd1306Opc [0x12#8]).map Frame.bytes
    = [[0x00#8, 0x21#8, 0x1C#8, 0x63#8], [0x00#8, 0x22#8, 0x00#8, 0x04#8], [0x40#8, 0x12#8]] := rfl

/-- Rows 1, 3 and 4. -/
theorem test_init_status :
    [regAfter 0#3 (exec .init { clean with transport := List.replicate 16 ok }),
     regAfter 0#3 (exec .init { clean with transport := [silent] }),
     regAfter 0#3 (exec .init { clean with transport := [ok, ok, err] }),
     regAfter 0#3 (exec .init { clean with transport := List.replicate 15 ok ++ [err] })]
      = [some 0x0002#16, some 0x0050#16, some 0x0030#16, some 0x0030#16] := by decide

/-- UPDATE's sequence, not answered at the third transaction (the status does not depend on the bytes of the data). -/
theorem test_update_status : regRead (runBus (updateSeq ssd1306Opc []) endBus { clean with pstate := .on, transport := [ok, ok, silent] }) 0#3
    = 0x0042#16 := by decide

/-- POWER off answered OK; POWER on answered ERROR while OFF. -/
theorem test_power_status :
    [regAfter 0#3 (exec (.power false) { clean with pstate := .on, transport := [ok] }),
     regAfter 0#3 (exec (.power true) { clean with pstate := .off, transport := [err] })]
      = [some 0x0004#16, some 0x0024#16] := by decide

/-! ## Faults (95_test_vectors.md 2.8) -/

/-- STATUS, FCAUSE and FWORD after a header word. -/
def faultRow (w : Word) (s : State) : Word × Word × Word :=
  (regRead (pushed [w] s) 0#3, regRead (pushed [w] s) 2#3, regRead (pushed [w] s) 3#3)

theorem test_fault_rows :
    [faultRow 0x0000#16 clean, faultRow 0x0113#16 clean, faultRow 0x0101#16 clean, faultRow 0x0212#16 clean,
      faultRow 0x0210#16 { clean with pstate := .on }]
      = [(0x0008#16, 1#16, 0x0000#16), (0x0008#16, 1#16, 0x0113#16), (0x0008#16, 2#16, 0x0101#16), (0x0008#16, 2#16, 0x0212#16),
         (0x000A#16, 2#16, 0x0210#16)] := by decide
theorem test_fault_rows_state :
    [faultRow 0x0011#16 clean, faultRow 0x0112#16 clean, faultRow 0x0011#16 { clean with xpPresent := false },
      faultRow 0x0010#16 { clean with xpPresent := false }, faultRow 0x0010#16 { clean with pstate := .on }]
      = [(0x0008#16, 4#16, 0x0011#16), (0x0008#16, 4#16, 0x0112#16), (0x0008#16, 4#16, 0x0011#16), (0x0008#16, 5#16, 0x0010#16),
         (0x000A#16, 3#16, 0x0010#16)] := by decide

/-- A discarded PIXEL after a fault. -/
theorem test_discarded : litCells (.next (pushed [0x0000#16, 0x0002#16, 0#16, 0#16] clean)) = []
    ∧ (pushed [0x0000#16, 0x0002#16, 0#16, 0#16] clean).fword = 0x0000#16 := by decide

/-! ## Parser and step -/

/-- The words of TEXT 0, 0, "A" (S7) leave that command latched, and no word is accepted then. -/
theorem test_parser : fetch (pushed [0x0106#16, 0#16, 0#16, 0x0041#16] clean) = .ok (.text 0#16 0#16 [0x41#8])
    ∧ cmdReady true (pushed [0x0106#16, 0#16, 0#16, 0x0041#16] clean) = false := by decide

/-- A placed table word runs as the next step. -/
theorem test_step : litCells (step (clean.withFetchWord 48 0x000C00030002)) = [(75, 0x10#8)] := by decide

/-! ## The assembler (30_encoding.md R81, R82) -/

theorem test_asm_string : assembleLine "  TEXT 0, 0, \"A\\xC8\" ; a comment".toList = some [0x0206#16, 0#16, 0#16, 0xC841#16] := by decide
theorem test_asm_api_names : assembleLine "drawRect 0, 0, 0x0047, 39".toList = some [0x0004#16, 0#16, 0#16, 0x0047#16, 0x0027#16]
    ∧ assembleLine "setPower(true)".toList = some [0x0112#16] := by decide
theorem test_asm_range : assembleLine "PIXEL 32768, 0".toList = none ∧ assembleLine "PIXEL -32768, 0".toList = some [0x0002#16, 0x8000#16, 0#16] := by
  decide
theorem test_asm_comment : assembleLine "; nothing".toList = some [] := by decide
theorem test_disassemble : disassemble (.text 0xFFF6#16 1#16 [0x41#8, 0x22#8, 0xC8#8]) = "TEXT -10, 1, \"A\\\"\\xC8\"".toList := by decide

/-! ## Values that meet the hypotheses of the statements -/

/-- A PIXEL command with one operand word received and its last word offered. -/
def collecting : State :=
  { clean with hdr := 0x0002#16, parse := .collect, nrx := 1, opnd := ⟨71#16, 0#16, 0#16, 0#16⟩, host := [.word 39#16] }

/-- A command complete in the latches, of that header word. -/
def latched (h : Word) (s : State) : State := { s with hdr := h, exec := true }

/-- The display ON, three answers OK to come. -/
def displayOn : State := { clean with pstate := .on, transport := List.replicate 3 ok }

/-- The fault state after header 0x0000. -/
def faulted : State := { clean with fault := true, fcause := .illegalOpcode, fword := 0x0000#16 }

theorem zeroFb_wf : Memory.wf 360 clean.fb = true := by decide +kernel

theorem lut_wf : Memory.wf 475 clean.glyphRom = true := by decide +kernel

theorem clean_inv : BlockInv clean where
  framebuffer := zeroFb_wf
  lut := lut_wf
  txtSize := by decide +kernel
  noneInFlight := rfl
  idle := fun _ => rfl
  collecting := nofun
  executing := nofun
  faulted := nofun
  unfaulted := fun _ => ⟨rfl, rfl⟩

theorem collecting_inv : BlockInv collecting where
  framebuffer := zeroFb_wf
  lut := lut_wf
  txtSize := by decide +kernel
  noneInFlight := rfl
  idle := nofun
  collecting := fun _ => ⟨rfl, ⟨.pixel, rfl⟩, by decide⟩
  executing := nofun
  faulted := nofun
  unfaulted := fun _ => ⟨rfl, rfl⟩

theorem latched_inv : BlockInv (latched 0x0112#16 displayOn) where
  framebuffer := zeroFb_wf
  lut := lut_wf
  txtSize := by decide +kernel
  noneInFlight := rfl
  idle := fun _ => rfl
  collecting := nofun
  executing := fun _ => ⟨by decide, rfl⟩
  faulted := nofun
  unfaulted := fun _ => ⟨rfl, rfl⟩

/-- The outcome is a next state of which `p` holds. -/
def nextAnd (p : State → Bool) (o : Host.Outcome State Fault Refusal) : Bool :=
  match o with
  | .next t => p t
  | .fault _ => false
  | .refused _ => false

theorem nextAnd_exists {p : State → Bool} {o : Host.Outcome State Fault Refusal} (h : nextAnd p o = true) :
    ∃ t, o = .next t ∧ p t = true := by
  cases o with
  | next t => exact ⟨t, rfl, h⟩
  | fault _ => cases h
  | refused _ => cases h

/-- After a power-up and after a reset of the fault state; and a reset coming in COLLECT and in the fault state. -/
theorem test_witness_ResetPutsEveryRegisterAtItsResetValue :
    (State.reset = State.reset ∨ ∃ u, State.reset = takeReset u) ∧ (takeReset faulted = State.reset ∨ ∃ u, takeReset faulted = takeReset u)
      ∧ (collecting.fault = true ∨ collecting.exec = false) ∧ { collecting with host := [.reset] }.host = .reset :: []
      ∧ (faulted.fault = true ∨ faulted.exec = false) ∧ { faulted with host := [.reset, .word 1#16] }.host = .reset :: [.word 1#16] :=
  ⟨.inl rfl, .inr ⟨faulted, rfl⟩, .inr rfl, rfl, .inl rfl, rfl⟩

/-- In COLLECT at the last word, and in the engine's step. -/
theorem test_witness_EveryStepKeepsTheInvariant :
    (BlockInv collecting ∧ ∃ t, step collecting = .next t ∧ t.exec = true)
      ∧ BlockInv (latched 0x0112#16 displayOn) ∧ ∃ t, step (latched 0x0112#16 displayOn) = .next t ∧ (!t.exec) = true :=
  ⟨⟨collecting_inv, nextAnd_exists (p := (·.exec)) (by decide +kernel)⟩, latched_inv, nextAnd_exists (by decide +kernel)⟩

theorem test_witness_EveryStepAnswersANextState : BlockInv (latched 0x0112#16 displayOn) := latched_inv

/-- POWER on in the latches. -/
theorem test_witness_StepExecutesTheLatchedCommand :
    (latched 0x0112#16 displayOn).fault = false ∧ (latched 0x0112#16 displayOn).exec = true
      ∧ decodeHeader (latched 0x0112#16 displayOn).hdr = .ok (.power true) := by decide

/-- One state for each of the two clauses with hypotheses; the second also with FAULT = 1. -/
theorem test_witness_WordsAreAcceptedOnlyWhenReady :
    (cmdReady true (latched 0x0001#16 clean) = false ∧ ∃ t, step (latched 0x0001#16 clean) = .next t ∧ t.exec = false)
      ∧ (cmdReady true collecting = true ∧ collecting.host = .word 39#16 :: [])
      ∧ cmdReady true { latched 0x0001#16 faulted with host := [.word 1#16] } = true :=
  ⟨⟨by decide, _, rfl, rfl⟩, by decide, by decide⟩

/-- The block idle, with one header word offered. -/
def offered (w : Word) (s : State) : State := { s with host := [.word w] }

/-- One word for each cause, in a state that raises it. -/
theorem test_witness_AFailedHeaderCheckTakesTheFault :
    [(0x0009#16, clean, Cause.illegalOpcode), (0x0312#16, clean, .reservedAux), (0x0010#16, displayOn, .doubleInit),
      (0x0112#16, clean, .notInitialized), (0x0010#16, { clean with xpPresent := false }, .noTransport)].all
      (fun (w, s, c) => (offered w s).fault = false ∧ (offered w s).exec = false ∧ (offered w s).parse = .idle
        ∧ (offered w s).host = .word w :: [] ∧ headerCheck w (offered w s) = some c) = true := by decide

/-- A word that raises a fault and one that raises none, each offered to an idle block. -/
theorem test_witness_HeaderChecksInOrderOfPriority :
    [0x0010#16, 0x0112#16].all (fun w => (offered w displayOn).fault = false ∧ (offered w displayOn).exec = false
      ∧ (offered w displayOn).parse = .idle ∧ (offered w displayOn).host = .word w :: []) = true := by decide

/-- Where the clauses meet (95_test_vectors.md 2.1, 2.8). -/
theorem test_header_check_priority :
    [headerCheck 0x0113#16 clean, headerCheck 0x0101#16 clean, headerCheck 0x0212#16 clean, headerCheck 0x0210#16 displayOn,
      headerCheck 0x0011#16 { clean with xpPresent := false }, headerCheck 0xFF06#16 clean, headerCheck 0x0112#16 displayOn]
      = [some .illegalOpcode, some .reservedAux, some .reservedAux, some .reservedAux, some .notInitialized, none, none] := by
  decide

theorem test_witness_EveryFaultIsRaisedAtAHeader :
    BlockInv (offered 0x0000#16 clean) ∧ (offered 0x0000#16 clean).fault = false
      ∧ ∃ t, step (offered 0x0000#16 clean) = .next t ∧ t.fault = true :=
  ⟨{ clean_inv with }, rfl, nextAnd_exists (p := (·.fault)) (by decide)⟩

theorem test_witness_TheFaultStateLastsUntilReset :
    { faulted with host := [.word 0x0001#16, .attach false] }.fault = true
      ∧ HostEvent.reset ∉ { faulted with host := [.word 0x0001#16, .attach false] }.host := by decide

theorem test_witness_OnlyResetClearsTheFault :
    { faulted with host := [.reset] }.fault = true
      ∧ ∃ t, step { faulted with host := [.reset] } = .next t ∧ t.fault = false := ⟨rfl, _, rfl, rfl⟩

/-- The transport leaving in COLLECT and in the fault state; nothing coming. -/
theorem test_witness_TheAttachInputAndWaiting :
    (collecting.fault = true ∨ collecting.exec = false) ∧ { collecting with host := [.attach false] }.host = .attach false :: []
      ∧ (faulted.fault = true ∨ faulted.exec = false) ∧ { faulted with host := [.attach true] }.host = .attach true :: []
      ∧ { collecting with host := [] }.host = [] := ⟨.inr rfl, rfl, .inl rfl, rfl, rfl⟩

/-- Nothing from outside, and the transport coming and going. -/
theorem test_witness_APartialCommandWaitsForever :
    collecting.fault = false ∧ collecting.exec = false ∧ collecting.parse = .collect
      ∧ (∀ e ∈ { collecting with host := [] }.host, ∃ p, e = .attach p)
      ∧ ∀ e ∈ { collecting with host := [.attach false, .attach true] }.host, ∃ p, e = .attach p :=
  ⟨rfl, rfl, rfl, nofun, by intro e he; simp at he; rcases he with rfl | rfl <;> exact ⟨_, rfl⟩⟩

/-- The longest command, a TEXT of 255 bytes, and one that has a state check. -/
theorem test_witness_PushedWordsLatchTheCommand :
    [Instr.text 0x8000#16 0x7FFF#16 (List.replicate 255 0x41#8), .power true].all (fun i =>
      i.wellFormed && !displayOn.fault && !displayOn.exec && decide (displayOn.parse = .idle) && decide (displayOn.txt.length = 255)
        && decide (headerCheck ((encode i).headD 0x0000#16) displayOn = none)) = true := by decide +kernel

theorem test_witness_APlacedTableWordRunsNext :
    clean.txt.length = 255 ∧ decodeTableWord 16 0xFF07 = some (.textc 0#16 (List.replicate 255 0x00#8)) := by decide +kernel

theorem test_witness_DecodeOfEncodeIsTheCommand : (Instr.textc 0xFFFF#16 (List.replicate 255 0xFF#8)).wellFormed = true := by
  decide +kernel

/-- An odd text with a padding byte that is not zero, and a word after it. -/
theorem test_witness_DecodedWordsAreTheEncodedWords :
    decode [0x0107#16, 0#16, 0xFF41#16, 0x0001#16] = .ok (.textc 0#16 [0x41#8], [0x0001#16]) := by decide

theorem test_witness_TextWordsCarryTwoBytesLowFirst :
    (List.replicate 128 0x4241#16).length = ((0xFF#8).toNat + 1) / 2 ∧ ([] : List Word).length = ((0x00#8).toNat + 1) / 2 := by
  decide +kernel

theorem test_witness_TheBitSetPort :
    (Memory.wf 360 zeroFb = true ∧ 71 < 72 ∧ 39 < 40) ∧ ¬ ((0 ≤ (72 : Int) ∧ (72 : Int) < 72) ∧ 0 ≤ (0 : Int) ∧ (0 : Int) < 40)
      ∧ ¬ ((0 ≤ (0 : Int) ∧ (0 : Int) < 72) ∧ 0 ≤ (-1 : Int) ∧ (-1 : Int) < 40)
      ∧ Instr.pixel 71#16 39#16 ≠ .clear
      ∧ ∃ t, exec (.pixel 71#16 39#16) clean = .next t ∧ decide (t.resets = clean.resets) = true :=
  ⟨⟨zeroFb_wf, by decide⟩, by decide, by decide, nofun, nextAnd_exists (by decide)⟩

theorem test_witness_TheBitReadPort : zeroFb.read (39 / 8 * 72 + 71) = some 0x00#8 ∧ 71 < 72 ∧ 39 < 40 := by decide +kernel

/-- Two lists in another order, one with a repeat and a point out of bounds. -/
theorem test_witness_PixelOrderMakesNoDifference :
    Memory.wf 360 zeroFb = true
      ∧ ∀ x y : Int, inBounds x y = true → ((x, y) ∈ [((0 : Int), (0 : Int)), (71, 39)] ↔ (x, y) ∈ [(71, 39), (72, 0), (0, 0), (71, 39)]) := by
  refine ⟨zeroFb_wf, fun x y h => ?_⟩
  have : x < 72 := by simp [inBounds] at h; omega
  simp only [List.mem_cons, Prod.mk.injEq, List.not_mem_nil, or_false]
  omega

/-- The one hypothesis of the statements on CLEAR, PIXEL, GETPIX, LINE, RECT, FILL, TEXT, TEXTC and OnlyClearUnlightsAPixel. -/
theorem test_witness_framebuffer : Memory.wf 360 clean.fb = true := zeroFb_wf

theorem test_witness_GetpixReadsItsPixel :
    inBounds (sext16 71#16) (sext16 39#16) = true ∧ inBounds (sext16 72#16) (sext16 39#16) = false
      ∧ inBounds (sext16 0xFFFF#16) (sext16 0#16) = false := by decide

/-- Both sides of the condition, at the edges of page 4 and column 71. -/
theorem test_witness_FillEqualsTheByteWiseForm :
    Memory.wf 360 zeroFb = true ∧ 4 < 5 ∧ 71 < 72
      ∧ (max (39 : Int) (8 * 4) < min (39 + 1) (8 * 4 + 8) ∧ max (71 : Int) 0 ≤ 71 ∧ (71 : Int) < min (71 + 5) 72)
      ∧ ¬ max (40 : Int) (8 * 4) < min (40 + 1) (8 * 4 + 8) := by decide +kernel

theorem test_witness_RectAndFillDifferByOne :
    (0 : Int) ≤ 0 ∧ (0 : Int) ≤ 4 ∧ (0 : Int) < 4 ∧ ((0 : Int), (0 : Int)) ∈ rectPoints 0 0 4 4 ∧ ((3 : Int), (3 : Int)) ∈ fillSpans 0 0 4 4 := by
  decide

/-- A point that is not the last, the last one, and a line of one point. -/
theorem test_witness_TheWalkIsTheLoopOfTheRule :
    (linePoints 0 0 1 2)[1]? = some (0, 1) ∧ ((0, 1) : Int × Int) ≠ (1, 2) ∧ (linePoints 0 0 1 2)[2]? = some (1, 2)
      ∧ (linePoints 5 5 5 5)[0]? = some (5, 5) := by decide

theorem test_witness_TheWalkIsEightConnectedAndMonotone :
    (linePoints 0 0 (-3) 1)[1]? = some (-1, 0) ∧ (linePoints 0 0 (-3) 1)[1 + 1]? = some (-2, 1) := by decide

theorem test_witness_TheErrorTermIsBounded :
    0 ≤ max (32767 - (-32768) : Int).natAbs (0 - 0 : Int).natAbs ∧ max (32767 - (-32768) : Int).natAbs (0 - 0 : Int).natAbs ≤ 65535 := by
  decide

/-- An event of each kind; answers at the last cycle in time and at the first too late. -/
theorem test_witness_ATransactionEndsByAnswerOrTimeout :
    (∃ s : State, s.transport = ok :: [] ∧ ok.kind = .answer 0 false ∧ 0 ≤ Config.tXfer)
      ∧ (∃ e : XpEvent, e.kind = .answer Config.tXfer true ∧ Config.tXfer ≤ Config.tXfer)
      ∧ (∃ e : XpEvent, e.kind = .answer (Config.tXfer + 1) false ∧ Config.tXfer < Config.tXfer + 1)
      ∧ silent.kind = .silent ∧ resetEvent.kind = .reset :=
  ⟨⟨{ clean with transport := [ok] }, rfl, rfl, Nat.zero_le _⟩, ⟨⟨0, .answer Config.tXfer true⟩, rfl, Nat.le_refl _⟩,
    ⟨⟨0, .answer (Config.tXfer + 1) false⟩, rfl, Nat.lt_succ_self _⟩, rfl, rfl⟩

/-- The first and the last byte of a transaction. -/
theorem test_witness_BytesOnThePortAreFlagged :
    (cmdTxn 0xD3#8 [0x00#8]).beats[0]? = some ⟨0x00#8, true, false⟩ ∧ (cmdTxn 0xD3#8 [0x00#8]).beats[2]? = some ⟨0x00#8, false, true⟩
      ∧ (dataTxn []).beats[0]? = some ⟨0x40#8, true, true⟩ := by decide

/-- All answered OK; and the second not. -/
theorem test_witness_ASequenceStopsAtItsFirstFailure :
    (displayOn.inFlight = none ∧ displayOn.transport = List.replicate 3 ok ++ [] ∧ (List.replicate 3 ok).length = (updateSeq ssd1306Opc []).length
        ∧ AllOk (List.replicate 3 ok))
      ∧ [ok, err] = List.replicate 1 ok ++ err :: [] ∧ (List.replicate 1 ok).length < (updateSeq ssd1306Opc []).length
      ∧ AllOk (List.replicate 1 ok) ∧ eventEnd err ≠ .answered .ok :=
  ⟨⟨rfl, rfl, rfl, allOk_replicate 3⟩, rfl, by decide, allOk_replicate 1, by simp [eventEnd_err]⟩

theorem test_witness_InitSucceeds :
    { clean with transport := List.replicate 16 ok ++ [err] }.pstate = .uninit
      ∧ { clean with transport := List.replicate 16 ok ++ [err] }.xpPresent = true
      ∧ (List.replicate 16 ok).length = 16 ∧ AllOk (List.replicate 16 ok) := ⟨rfl, rfl, rfl, allOk_replicate 16⟩

/-- The sixteenth transaction is answered ERROR; the first is not answered. -/
theorem test_witness_AFailedInitLeavesUninit :
    { clean with transport := List.replicate 15 ok ++ err :: [] }.pstate = .uninit
      ∧ { clean with transport := List.replicate 15 ok ++ err :: [] }.xpPresent = true
      ∧ (List.replicate 15 ok).length < 16 ∧ AllOk (List.replicate 15 ok) ∧ eventEnd err = .answered .error ∧ Answer.error ≠ .ok
      ∧ ([] : List XpEvent).length < 16 ∧ AllOk [] ∧ eventEnd silent = .answered .timeout ∧ Answer.timeout ≠ .ok :=
  ⟨rfl, rfl, by decide, allOk_replicate 15, eventEnd_err, nofun, by decide, nofun, rfl, nofun⟩

theorem test_witness_UpdateSendsTheFramebuffer :
    Memory.wf 360 displayOn.fb = true ∧ displayOn.pstate ≠ .uninit ∧ displayOn.xpPresent = true
      ∧ displayOn.transport = ok :: ok :: ok :: [] ∧ AllOk [ok, ok, ok] := ⟨zeroFb_wf, nofun, rfl, rfl, allOk_replicate 3⟩

/-- The third transaction is not answered. -/
theorem test_witness_AFailedUpdateStops :
    Memory.wf 360 { displayOn with transport := List.replicate 2 ok ++ silent :: [] }.fb = true ∧ displayOn.pstate ≠ .uninit
      ∧ displayOn.xpPresent = true ∧ (List.replicate 2 ok).length < 3 ∧ AllOk (List.replicate 2 ok)
      ∧ eventEnd silent = .answered .timeout ∧ Answer.timeout ≠ .ok :=
  ⟨zeroFb_wf, nofun, rfl, by decide, allOk_replicate 2, rfl, nofun⟩

/-- An OK answer and one that is not. -/
theorem test_witness_PowerSwitchesTheDisplay :
    displayOn.pstate ≠ .uninit ∧ displayOn.xpPresent = true ∧ displayOn.transport = ok :: List.replicate 2 ok
      ∧ eventEnd ok = .answered .ok ∧ eventEnd err = .answered .error := ⟨nofun, rfl, rfl, eventEnd_ok, eventEnd_err⟩

/-- One state for each of the four clauses. -/
theorem test_witness_BusCommandsFaultInTheWrongState :
    displayOn.pstate ≠ .uninit ∧ { clean with xpPresent := false }.pstate = .uninit ∧ { clean with xpPresent := false }.xpPresent = false
      ∧ clean.pstate = .uninit ∧ { displayOn with xpPresent := false }.pstate ≠ .uninit
      ∧ { displayOn with xpPresent := false }.xpPresent = false := by decide

/-- INIT in its sixteenth transaction, UPDATE in its third, POWER in its one. -/
theorem test_witness_AResetAbandonsTheOpenTransaction :
    Memory.wf 360 clean.fb = true ∧ clean.xpPresent = true ∧ clean.pstate = .uninit ∧ (List.replicate 15 ok).length < 16
      ∧ AllOk (List.replicate 15 ok) ∧ displayOn.pstate ≠ .uninit ∧ (List.replicate 2 ok).length < 3 ∧ AllOk (List.replicate 2 ok)
      ∧ ([] : List XpEvent).length < 1 ∧ AllOk [] ∧ resetEvent.kind = .reset :=
  ⟨zeroFb_wf, rfl, rfl, by decide, allOk_replicate 15, nofun, by decide, allOk_replicate 2, by decide, nofun, rfl⟩

/-- One state for each way PSTATE changes. -/
theorem test_witness_PowerStateChangesOnlyAsTheTableSays :
    (∃ t, step (latched 0x0010#16 { clean with transport := List.replicate 16 ok }) = .next t ∧ decide (t.pstate ≠ .uninit) = true)
      ∧ (∃ t, step (latched 0x0012#16 displayOn) = .next t ∧ decide (t.pstate ≠ .on) = true)
      ∧ ∃ t, step { displayOn with host := [.reset] } = .next t ∧ decide (t.pstate ≠ .on) = true :=
  ⟨nextAnd_exists (by decide), nextAnd_exists (by decide), nextAnd_exists (by decide)⟩

/-- One state for each row of the table, INIT and POWER each with an OK answer and with another. -/
theorem test_witness_PowerStateTransitionTable :
    (∃ t, exec .init { clean with transport := List.replicate 16 ok } = .next t
        ∧ (decide (t.resets = 0) && decide (t.xstat = .ok) && decide (t.pstate = .on)) = true)
      ∧ (∃ t, exec .init { clean with transport := [silent] } = .next t
        ∧ (decide (t.resets = 0) && decide (t.xstat = .timeout) && t.initFailed) = true)
      ∧ (∃ t, exec .init displayOn = .next t ∧ (decide (t.resets = 0) && t.fault) = true)
      ∧ (∃ t, exec .update clean = .next t ∧ (decide (t.resets = 0) && t.fault) = true)
      ∧ (∃ t, exec (.power true) clean = .next t ∧ (decide (t.resets = 0) && t.fault) = true)
      ∧ (∃ t, exec (.power false) displayOn = .next t ∧ (decide (t.resets = 0) && decide (t.pstate = .off)) = true)
      ∧ (∃ t, exec (.power false) { displayOn with transport := [err] } = .next t
        ∧ (decide (t.resets = 0) && decide (t.pstate = .on)) = true)
      ∧ ∃ t, exec .clear displayOn = .next t ∧ (decide (t.resets = 0) && decide (t.pstate = .on)) = true :=
  ⟨nextAnd_exists (by decide), nextAnd_exists (by decide), nextAnd_exists (by decide), nextAnd_exists (by decide +kernel),
    nextAnd_exists (by decide), nextAnd_exists (by decide), nextAnd_exists (by decide), nextAnd_exists (by decide)⟩

/-- A lit pixel, and a PIXEL command that lights another. -/
theorem test_witness_OnlyClearUnlightsAPixel :
    Memory.wf 360 (setPixel zeroFb 71 39) = true ∧ Lit (setPixel zeroFb 71 39) 71 39
      ∧ ∃ t, step (latched 0x0002#16 { clean with fb := setPixel zeroFb 71 39 }) = .next t ∧ decide (t.resets = 0) = true :=
  ⟨by decide +kernel, by unfold Lit; decide +kernel, nextAnd_exists (by decide +kernel)⟩

/-- For each field that a command can write, one that writes it. -/
theorem test_witness_EachFieldHasItsWriters :
    (∃ t, exec (.pixel 0#16 0#16) clean = .next t ∧ (decide (t.fb ≠ zeroFb) && decide (t.resets = 0)) = true)
      ∧ (∃ t, exec .init { clean with transport := List.replicate 16 ok } = .next t
          ∧ (decide (t.pstate ≠ .uninit) && decide (t.bus ≠ []) && decide (t.resets = 0)) = true)
      ∧ (∃ t, exec .init { clean with transport := [silent] } = .next t
          ∧ (t.initFailed && decide (t.xstat ≠ .ok) && decide (t.resets = 0)) = true)
      ∧ (∃ t, exec (.getpix 0#16 0#16) { clean with pix := true } = .next t ∧ (!t.pix && decide (t.resets = 0)) = true)
      ∧ ∃ t, exec .init displayOn = .next t ∧ (t.fault && decide (t.resets = 0)) = true :=
  ⟨nextAnd_exists (by decide), nextAnd_exists (by decide), nextAnd_exists (by decide),
    nextAnd_exists (by decide), nextAnd_exists (by decide)⟩

theorem test_witness_TheGlyphRomIsNeverWritten : ∃ t, step { clean with host := [.reset] } = .next t ∧ decide (t.resets = 1) = true :=
  nextAnd_exists (by decide)

theorem test_witness_InitAndPowerNeverReadTheFramebuffer :
    (∃ t, exec .init { clean with transport := List.replicate 16 ok } = .next t ∧ decide (t.resets = 0) = true)
      ∧ ∃ t, exec (.power false) displayOn = .next t ∧ decide (t.resets = 0) = true :=
  ⟨nextAnd_exists (by decide), nextAnd_exists (by decide)⟩

theorem update_next (s : State) (h : Memory.wf 360 s.fb = true) : ∃ t, exec .update s = .next t := by
  obtain ⟨bs, hb⟩ := Memory.wf_readRange h
  simp only [exec, execUpdate, hb]
  split <;> exact ⟨_, rfl⟩

/-- The same framebuffer, ON with the one and OFF with the other history. -/
theorem test_witness_UpdateSendsTheSameForTheSameContent :
    { displayOn with pstate := .off, pix := true }.fb = displayOn.fb ∧ displayOn.pstate ≠ .uninit ∧ displayOn.xpPresent = true
      ∧ { displayOn with pstate := .off, pix := true }.pstate ≠ .uninit
      ∧ (∃ t, exec .update displayOn = .next t) ∧ ∃ t, exec .update { displayOn with pstate := .off, pix := true } = .next t :=
  ⟨rfl, nofun, rfl, nofun, update_next displayOn zeroFb_wf, update_next { displayOn with pstate := .off, pix := true } zeroFb_wf⟩

end Sys2Proof.Tests
end

/-! ## The scope family: the step and the command in the latches -/

namespace Sys2Proof.Machine

/-- Settles O5: with EXEC = 1 and FAULT = 0 the step is the engine's, and a legal header makes the command it executes. -/
theorem stepExecutesTheLatchedCommand : Obligations.StepExecutesTheLatchedCommand := by
  unfold Obligations.StepExecutesTheLatchedCommand
  intro s k hfault hexec hk
  exact step_engine hfault hexec (fetch_ok hk)

/-- The decoder gives a command only for a legal header with all of its operand words after it, and then the command is the one
that these make. -/
theorem decode_ok {ws rest : List Word} {i : Instr} (h : decode ws = .ok (i, rest)) :
    ∃ hd ops k, ws = hd :: ops ∧ decodeHeader hd = .ok k ∧ cmdLen hd - 1 ≤ ops.length
      ∧ i = buildFromWords hd k (ops.take (cmdLen hd - 1)) ∧ rest = ops.drop (cmdLen hd - 1) := by
  cases ws with
  | nil => cases h
  | cons hd ops =>
    cases hk : decodeHeader hd with
    | error e => simp [decode, hk] at h
    | ok k =>
      by_cases hlen : ops.length < cmdLen hd - 1
      · simp [decode, hk, hlen] at h
      · simp only [decode, hk, if_neg hlen, Except.ok.injEq, Prod.mk.injEq] at h
        obtain ⟨hi, hrest⟩ := h
        exact ⟨hd, ops, k, rfl, hk, Nat.not_lt.mp hlen, hi.symm, hrest.symm⟩

theorem decodeTableWord_eq_some {nbits w : Nat} {i : Instr} :
    decodeTableWord nbits w = some i ↔ ∃ rest, decode (tableWords nbits w) = .ok (i, rest) := by
  cases h : decode (tableWords nbits w) with
  | error e => simp [decodeTableWord, h]
  | ok r => simp [decodeTableWord, h, Prod.ext_iff]

@[simp] theorem loadCommand_fault (ws : List Word) (s : State) : (loadCommand ws s).fault = false := rfl

@[simp] theorem loadCommand_exec (ws : List Word) (s : State) : (loadCommand ws s).exec = true := rfl

/-- Once words that decode are placed in the latches, the command there is the one they decode to (10_state.md R31). -/
theorem fetch_loadCommand {ws rest : List Word} {i : Instr} {s : State} (htxt : s.txt.length = 255)
    (h : decode ws = .ok (i, rest)) : fetch (loadCommand ws s) = .ok i := by
  obtain ⟨hd, ops, k, rfl, hk, hlen, rfl, -⟩ := decode_ok h
  have hops : (ops.take (cmdLen hd - 1)).length = cmdLen hd - 1 := List.length_take_of_le hlen
  calc fetch (loadCommand (hd :: ops) s)
    _ = .ok _ := fetch_ok hk
    _ = .ok (buildFromWords hd k (ops.take (cmdLen hd - 1))) :=
      congrArg Except.ok (build_latchWords hd k _ s.opnd s.txt hk hops htxt)

/-- Settles O14: the words of a table word that decodes stand in the latches as the command they decode to, and the engine
executes what stands there. -/
theorem aPlacedTableWordRunsNext : Obligations.APlacedTableWordRunsNext := by
  unfold Obligations.APlacedTableWordRunsNext
  intro s nbits w i htxt h
  obtain ⟨rest, hdecode⟩ := decodeTableWord_eq_some.mp h
  exact step_engine (loadCommand_fault _ s) (loadCommand_exec _ s) (fetch_loadCommand htxt hdecode)

end Sys2Proof.Machine

/-! ## The state family: the parser's moves, the invariant, and what a step leaves unchanged -/

namespace Sys2Proof.Machine

/-! ### What accepting a word does, case by case (10_state.md R31, 60_exceptions.md R225, R226) -/

theorem acceptWord_of_fault {w : Word} {s : State} (h : s.fault = true) : acceptWord w s = s := by
  simp [acceptWord, h]

theorem acceptWord_of_idle {w : Word} {s : State} (hf : s.fault = false) (hp : s.parse = .idle) :
    acceptWord w s = acceptHeader w s := by
  simp [acceptWord, hf, hp]

theorem acceptWord_of_collect {w : Word} {s : State} (hf : s.fault = false) (hp : s.parse = .collect) :
    acceptWord w s = acceptOperand w s := by
  simp [acceptWord, hf, hp]

theorem acceptHeader_of_some {w : Word} {s : State} {c : Cause} (h : headerCheck w s = some c) :
    acceptHeader w s = raiseFault c { s with hdr := w } := by
  simp [acceptHeader, h]

theorem acceptHeader_of_single {w : Word} {s : State} (h : headerCheck w s = none) (hl : cmdLen w = 1) :
    acceptHeader w s = completeCommand { s with hdr := w } := by
  simp [acceptHeader, h, hl]

theorem acceptHeader_of_longer {w : Word} {s : State} (h : headerCheck w s = none) (hl : cmdLen w ≠ 1) :
    acceptHeader w s = { s with hdr := w, parse := .collect, nrx := 0 } := by
  simp [acceptHeader, h, hl]

/-- The state with operand word `w` latched, unpacked and counted (R31). -/
def latchOperand (w : Word) (s : State) : State :=
  { s with
    opnd := s.opnd.latch (s.nrx + 1) w
    txt := latchOperandText s.hdr s.txt (s.nrx + 1) w
    nrx := s.nrx + 1 }

theorem acceptOperand_of_last {w : Word} {s : State} (h : cmdLen s.hdr ≤ s.nrx + 2) :
    acceptOperand w s = completeCommand (latchOperand w s) := by
  simp [acceptOperand, latchOperand, h]

theorem acceptOperand_of_missing {w : Word} {s : State} (h : s.nrx + 2 < cmdLen s.hdr) :
    acceptOperand w s = latchOperand w s := by
  simp [acceptOperand, latchOperand, Nat.not_le.mpr h]

/-- The state checks concern commands of one word only (60_exceptions.md R222): the header of a longer command passes once it is
legal. -/
theorem headerCheck_of_longer {w : Word} {k : Header} (s : State) (hk : decodeHeader w = .ok k) (hl : 1 < cmdLen w) :
    headerCheck w s = none := by
  rw [eq_headerWordOf hk, cmdLen_headerWordOf] at hl
  simp only [headerCheck, hk]
  cases k with
  | init | update | power on => exact absurd hl (Nat.lt_irrefl 1)
  | clear | pixel | line | rect | fill | text len | textc len | getpix => rfl

/-! ### The invariant, operation by operation -/

theorem freshFramebuffer_wf (n : Nat) : Memory.wf Config.fbBytes (freshFramebuffer n) = true :=
  Memory.wf_tabulate _ _

theorem glyphRomContent_wf : Memory.wf Config.glyphRomBytes glyphRomContent = true :=
  Memory.wf_tabulate _ _

theorem reset_blockInv : BlockInv State.reset where
  framebuffer := freshFramebuffer_wf 0
  lut := glyphRomContent_wf
  txtSize := List.length_replicate
  noneInFlight := rfl
  idle _ := rfl
  collecting := nofun
  executing := nofun
  faulted := nofun
  unfaulted _ := ⟨rfl, rfl⟩

/-- Settles O2: the two memories are tabulated, and every other clause speaks of a field at its reset value. -/
theorem resetMeetsTheInvariant : Obligations.ResetMeetsTheInvariant := reset_blockInv

/-- A reset establishes every clause but the one about the LUT, which it leaves alone. -/
theorem takeReset_blockInv {s : State} (hlut : Memory.wf Config.glyphRomBytes s.glyphRom = true) : BlockInv (takeReset s) :=
  { reset_blockInv with
    framebuffer := freshFramebuffer_wf (s.resets + 1)
    lut := hlut
    executing := nofun }

/-- No clause speaks of the host's moves. -/
theorem BlockInv.dropHost {s : State} (h : BlockInv s) (rest : List HostEvent) : BlockInv { s with host := rest } :=
  { h with
    executing := fun he =>
      have ⟨hcheck, hidle⟩ := h.executing he
      ⟨(headerCheck_congr s.hdr rfl rfl).trans hcheck, hidle⟩ }

/-- While no command executes, no clause speaks of the level of `xp_present`. -/
theorem BlockInv.attach {s : State} (h : BlockInv s) (he : s.exec = false) (b : Bool) : BlockInv { s with xpPresent := b } :=
  { h with
    executing := fun he' => absurd (he.symm.trans he') nofun }

/-- In IDLE a fault with a cause may be raised, at the header in the latch or at one that comes there now. -/
theorem BlockInv.raiseFault {s : State} (h : BlockInv s) (hp : s.parse = .idle) {c : Cause} (hc : c ≠ .none) (w : Word) :
    BlockInv (raiseFault c { s with hdr := w }) :=
  { h with
    idle := fun _ => h.idle hp
    collecting := nofun
    executing := nofun
    faulted := fun _ => ⟨hc, rfl, rfl⟩
    unfaulted := nofun }

/-- Once a header has passed every check its command may be complete, whatever its last word put in the latches. -/
theorem BlockInv.completeCommand {s : State} (h : BlockInv s) (hf : s.fault = false) {w : Word} (hcheck : headerCheck w s = none)
    (o : Opnd) {txt : List Byte} (htxt : txt.length = Config.txtMax) (n : Nat) :
    BlockInv (completeCommand { s with hdr := w, opnd := o, txt := txt, nrx := n }) :=
  { h with
    txtSize := htxt
    idle := fun _ => rfl
    collecting := nofun
    executing := fun _ => ⟨(headerCheck_congr w rfl rfl).trans hcheck, rfl⟩
    faulted := fun hf' => absurd (hf.symm.trans hf') nofun }

theorem BlockInv.acceptHeader {s : State} (h : BlockInv s) (hf : s.fault = false) (he : s.exec = false)
    (hp : s.parse = .idle) (w : Word) : BlockInv (acceptHeader w s) := by
  cases hcheck : headerCheck w s with
  | some c =>
    rw [acceptHeader_of_some hcheck]
    exact h.raiseFault hp (headerCheck_ne_none hcheck) w
  | none =>
    by_cases hl : cmdLen w = 1
    · rw [acceptHeader_of_single hcheck hl]
      exact h.completeCommand hf hcheck s.opnd h.txtSize s.nrx
    · rw [acceptHeader_of_longer hcheck hl]
      have hmore : 0 + 1 < cmdLen w := by have := cmdLen_pos w; omega
      exact { h with
        idle := fun _ => rfl
        collecting := fun _ => ⟨he, decodeHeader_of_headerCheck hcheck, hmore⟩
        executing := fun he' => absurd (he.symm.trans he') nofun
        faulted := fun hf' => absurd (hf.symm.trans hf') nofun }

theorem BlockInv.acceptOperand {s : State} (h : BlockInv s) (hf : s.fault = false) (hp : s.parse = .collect) (w : Word) :
    BlockInv (acceptOperand w s) := by
  obtain ⟨he, ⟨k, hk⟩, hmissing⟩ := h.collecting hp
  have htxt := (latchOperandText_length s.hdr s.txt (s.nrx + 1) w).trans h.txtSize
  by_cases hl : s.nrx + 2 < cmdLen s.hdr
  · rw [acceptOperand_of_missing hl]
    exact { h with
      txtSize := htxt
      idle := fun hp' => absurd (hp.symm.trans hp') nofun
      collecting := fun _ => ⟨he, ⟨k, hk⟩, hl⟩
      executing := fun he' => absurd (he.symm.trans he') nofun }
  · rw [acceptOperand_of_last (Nat.not_lt.mp hl)]
    exact h.completeCommand hf (headerCheck_of_longer s hk (by omega)) _ htxt _

theorem BlockInv.acceptWord {s : State} (h : BlockInv s) (he : s.exec = false) (w : Word) : BlockInv (acceptWord w s) := by
  cases hf : s.fault with
  | true => rw [acceptWord_of_fault hf]; exact h
  | false =>
    cases hp : s.parse with
    | idle => rw [acceptWord_of_idle hf hp]; exact h.acceptHeader hf he hp w
    | collect => rw [acceptWord_of_collect hf hp]; exact h.acceptOperand hf hp w

theorem BlockInv.hostMove {s : State} (h : BlockInv s) (he : s.exec = false) : BlockInv (hostMove s) := by
  obtain ⟨-, ht⟩ | ⟨rest, -, ht⟩ | ⟨b, rest, -, ht⟩ | ⟨w, rest, -, ht⟩ := hostMove_cases s <;> rw [ht]
  · exact h
  · exact takeReset_blockInv h.lut
  · exact (h.dropHost rest).attach he b
  · exact (h.dropHost rest).acceptWord he w

/-- A command that was executing has ended: the framebuffer is complete, the LUT, the fault record and the parser are as they were. -/
theorem BlockInv.ended {s t : State} (h : BlockInv s) (hs : s.exec = true) (hfb : Memory.wf Config.fbBytes t.fb = true)
    (hrom : t.glyphRom = s.glyphRom) (hrecord : SameFaultRecord s t) (hparser : SameParser s t) (hflight : t.inFlight = none)
    (ht : t.exec = false) : BlockInv t := by
  obtain ⟨hfault, hfcause, hfword⟩ := hrecord
  obtain ⟨hparse, hnrx, -, -, htxt⟩ := hparser
  obtain ⟨-, hidle⟩ := h.executing hs
  exact {
    framebuffer := hfb
    lut := hrom ▸ h.lut
    txtSize := htxt ▸ h.txtSize
    noneInFlight := hflight
    idle := fun _ => hnrx.trans (h.idle hidle)
    collecting := fun hp => absurd (hidle.symm.trans (hparse.symm.trans hp)) nofun
    executing := fun he => absurd (ht.symm.trans he) nofun
    faulted := fun hf => ⟨hfcause ▸ (h.faulted (hfault ▸ hf)).1, hparse.trans hidle, ht⟩
    unfaulted := fun hf => by rw [hfcause, hfword]; exact h.unfaulted (hfault ▸ hf) }

theorem BlockInv.exec {s t : State} {i : Instr} (h : BlockInv s) (hs : s.exec = true) (ht : exec i s = .next t) : BlockInv t := by
  obtain ⟨-, m, p, rfl, -, -, hm⟩ | ⟨-, c, rfl, hc⟩ | ⟨-, -, tr, b, rfl⟩ | ⟨-, -, tr, b, a, rfl⟩ | ⟨-, -, tr, b, a, rfl⟩
    | ⟨on, -, -, tr, b, a, rfl⟩ := exec_cases ht
  · have hwf : Memory.wf Config.fbBytes m = true := by
      obtain ⟨-, rfl⟩ | ⟨ps, rfl⟩ := hm
      · exact Memory.wf_clear h.framebuffer
      · exact setPixels_wf ps h.framebuffer
    exact h.ended hs hwf rfl ⟨rfl, rfl, rfl⟩ ⟨rfl, rfl, rfl, rfl, rfl⟩ h.noneInFlight rfl
  · exact h.raiseFault (h.executing hs).2 hc s.hdr
  · exact takeReset_blockInv h.lut
  all_goals exact h.ended hs h.framebuffer rfl ⟨rfl, rfl, rfl⟩ ⟨rfl, rfl, rfl, rfl, rfl⟩ rfl rfl

theorem headerCause_ne_none (e : HeaderError) : headerCause e ≠ .none := by cases e <;> nofun

/-- Settles O3: the outside's move, the engine's execution and a rejected header each keep the invariant. -/
theorem everyStepKeepsTheInvariant : Obligations.EveryStepKeepsTheInvariant := by
  unfold Obligations.EveryStepKeepsTheInvariant
  intro s t h hstep
  obtain ⟨hready, rfl⟩ | ⟨-, hexec, i, -, ht⟩ | ⟨-, hexec, e, -, rfl⟩ := step_next_cases hstep
  · exact h.hostMove (hready.elim (fun hf => (h.faulted hf).2.2) id)
  · exact h.exec hexec ht
  · exact h.raiseFault (h.executing hexec).2 (headerCause_ne_none e) s.hdr

end Sys2Proof.Machine

namespace Sys2Proof

/-! ### What the encoder emits, as a header and its operand words (30_encoding.md R71–R76, R81) -/

/-- The header of a command. -/
def Instr.header : Instr → Header
  | .clear => .clear
  | .pixel _ _ => .pixel
  | .line _ _ _ _ => .line
  | .rect _ _ _ _ => .rect
  | .fill _ _ _ _ => .fill
  | .text _ _ t => .text (lenAux t)
  | .textc _ t => .textc (lenAux t)
  | .getpix _ _ => .getpix
  | .init => .init
  | .update => .update
  | .power on => .power on

theorem encode_eq_cons (i : Instr) : encode i = headerWordOf i.header :: (encode i).tail := by
  cases i <;> rfl

/-- A well-formed command has as many words as its header says. -/
theorem length_encode {i : Instr} (hi : i.wellFormed = true) : (encode i).length = cmdLen (headerWordOf i.header) := by
  have ht {t : List Byte} (h : decide (t.length ≤ Config.txtMax) = true) : (lenAux t).toNat = t.length :=
    lenAux_toNat (of_decide_eq_true h)
  rw [cmdLen_headerWordOf]
  cases i with
  | text x y t => simp only [encode, Instr.header, List.length_cons, packText_length, ht hi]; omega
  | textc l t => simp only [encode, Instr.header, List.length_cons, packText_length, ht hi]; omega
  | clear | pixel | line | rect | fill | getpix | init | update | power => rfl

/-- The words after the header are the operands that the decoder builds the command from. -/
theorem buildFromWords_encode {i : Instr} (hi : i.wellFormed = true) :
    buildFromWords (headerWordOf i.header) i.header (encode i).tail = i := by
  have ht {t : List Byte} (h : decide (t.length ≤ Config.txtMax) = true) :
      (unpackText (packText t)).take (lenAux t).toNat = t := by
    rw [lenAux_toNat (of_decide_eq_true h), take_unpackText_packText]
  simp only [buildFromWords, textStart_headerWordOf]
  cases i with
  | text x y t => simp [encode, Instr.header, Header.build, ht hi]
  | textc l t => simp [encode, Instr.header, Header.build, ht hi]
  | clear | pixel | line | rect | fill | getpix | init | update | power => rfl

/-- A well-formed command's words, whatever follows them, decode to it. -/
theorem decode_encode_append {i : Instr} (hi : i.wellFormed = true) (rest : List Word) :
    decode (encode i ++ rest) = .ok (i, rest) := by
  have hlen : (encode i).tail.length = cmdLen (headerWordOf i.header) - 1 := by rw [List.length_tail, length_encode hi]
  have hmany : ¬ ((encode i).tail ++ rest).length < cmdLen (headerWordOf i.header) - 1 := by
    rw [List.length_append]; omega
  rw [encode_eq_cons, List.cons_append]
  simp only [decode, decodeHeader_headerWordOf, if_neg hmany]
  rw [← hlen, List.take_left, List.drop_left, buildFromWords_encode hi]

end Sys2Proof

namespace Sys2Proof.Machine

/-! ### A command's words on the port, one a step (30_encoding.md R70, 10_state.md R31) -/

section
variable {s : State} {w : Word} {rest : List HostEvent}

/-- While no command executes the step accepts the word that is offered. -/
theorem step_word (he : s.exec = false) (hh : s.host = .word w :: rest) :
    step s = .next (acceptWord w { s with host := rest }) := by
  rw [step_host (.inr he), hostMove_cons hh]; rfl

theorem step_header (hf : s.fault = false) (he : s.exec = false) (hp : s.parse = .idle) (hh : s.host = .word w :: rest) :
    step s = .next (acceptHeader w { s with host := rest }) :=
  (step_word he hh).trans (congrArg _ (acceptWord_of_idle hf hp))

theorem step_operand (hf : s.fault = false) (he : s.exec = false) (hp : s.parse = .collect) (hh : s.host = .word w :: rest) :
    step s = .next (acceptOperand w { s with host := rest }) :=
  (step_word he hh).trans (congrArg _ (acceptWord_of_collect hf hp))

end

/-- In COLLECT the operand words still missing, pushed one a step, complete the command with all of them in the latches. -/
theorem run_operands (ws : List Word) (rest : List HostEvent) (s : State) (hf : s.fault = false) (he : s.exec = false)
    (hp : s.parse = .collect) (hne : ws ≠ []) (hlen : s.nrx + 1 + ws.length = cmdLen s.hdr)
    (hh : s.host = ws.map HostEvent.word ++ rest) :
    Host.Core.run core ws.length s = .next (completeCommand { s with
      host := rest
      opnd := (latchWords s.hdr s.nrx ws s.opnd s.txt).1
      txt := (latchWords s.hdr s.nrx ws s.opnd s.txt).2 }) := by
  induction ws generalizing s with
  | nil => exact absurd rfl hne
  | cons w ws ih =>
    have hstep := step_operand hf he hp hh
    cases ws with
    | nil => exact (run_succ 0 hstep).trans (congrArg _ (acceptOperand_of_last hlen.ge))
    | cons v vs =>
      simp only [List.length_cons] at hlen ih ⊢
      have hmissing : s.nrx + 2 < cmdLen s.hdr := by omega
      have hnext : s.nrx + 1 + 1 + (vs.length + 1) = cmdLen s.hdr := by omega
      rw [run_succ _ (hstep.trans (congrArg _ (acceptOperand_of_missing hmissing)))]
      exact ih (latchOperand w _) hf he hp (List.cons_ne_nil v vs) hnext rfl

/-- Placing a whole command's words in the latches completes it there. -/
theorem loadCommand_eq {h : Word} {ops : List Word} {s : State} (hf : s.fault = false) (hlen : ops.length + 1 = cmdLen h) :
    loadCommand (h :: ops) s = completeCommand { s with
      hdr := h
      opnd := (latchWords h 0 ops s.opnd s.txt).1
      txt := (latchWords h 0 ops s.opnd s.txt).2 } := by
  simp [loadCommand, completeCommand, hf, ← hlen]

/-- Once the words of a command that passes its header checks have been pushed into an idle block, they are all in the latches. -/
theorem run_words {h : Word} {ops : List Word} {rest : List HostEvent} {s : State} (hf : s.fault = false) (he : s.exec = false)
    (hp : s.parse = .idle) (hcheck : headerCheck h s = none) (hlen : ops.length + 1 = cmdLen h)
    (hh : s.host = (h :: ops).map HostEvent.word ++ rest) :
    Host.Core.run core (h :: ops).length s = .next (loadCommand (h :: ops) { s with host := rest }) := by
  have hstep := step_header hf he hp hh
  have hcheck' (r : List HostEvent) : headerCheck h { s with host := r } = none := (headerCheck_congr h rfl rfl).trans hcheck
  rw [loadCommand_eq (s := { s with host := rest }) hf hlen]
  cases ops with
  | nil => exact (run_succ 0 hstep).trans (congrArg _ (acceptHeader_of_single (hcheck' _) hlen.symm))
  | cons w ws =>
    rw [List.length_cons] at hlen
    have hlonger : cmdLen h ≠ 1 := by omega
    have hnext : 0 + 1 + (ws.length + 1) = cmdLen h := by omega
    rw [List.length_cons, run_succ _ (hstep.trans (congrArg _ (acceptHeader_of_longer (hcheck' _) hlonger)))]
    exact run_operands (w :: ws) rest _ hf he rfl (List.cons_ne_nil w ws) hnext rfl

/-- Settles O13: the pushed words leave in the latches what placing them there does, and that is the command they decode to. -/
theorem pushedWordsLatchTheCommand : Obligations.PushedWordsLatchTheCommand := by
  unfold Obligations.PushedWordsLatchTheCommand
  intro i s rest hi hf he hp htxt hcheck hh
  have hdecode : decode (encode i) = .ok (i, []) := by simpa using decode_encode_append hi []
  have hlen := length_encode hi
  rw [encode_eq_cons] at hcheck hh hdecode hlen ⊢
  refine ⟨_, run_words hf he hp hcheck hlen hh, fetch_loadCommand htxt hdecode, rfl, rfl, rfl, rfl, rfl, rfl,
    ⟨rfl, rfl, rfl, rfl⟩, ⟨hf.symm, rfl, rfl⟩, rfl, rfl, rfl, rfl⟩

end Sys2Proof.Machine

namespace Sys2Proof.Machine

/-! ### What no step does: clear a fault, write the LUT -/

/-- In the fault state the outside's move is a reset, or FAULT stays. -/
theorem hostMove_of_fault {s : State} (hf : s.fault = true) :
    (∃ rest, s.host = .reset :: rest ∧ hostMove s = takeReset { s with host := rest }) ∨ (hostMove s).fault = true := by
  obtain ⟨-, hm⟩ | hreset | ⟨b, rest, -, hm⟩ | ⟨w, rest, -, hm⟩ := hostMove_cases s
  · exact .inr ((congrArg State.fault hm).trans hf)
  · exact .inl hreset
  · exact .inr ((congrArg State.fault hm).trans hf)
  · have hdiscard : acceptWord w { s with host := rest } = { s with host := rest } := acceptWord_of_fault hf
    exact .inr ((congrArg State.fault (hm.trans hdiscard)).trans hf)

/-- Settles O11: in the fault state a step is the outside's move, and every move but a reset leaves FAULT at 1. -/
theorem onlyResetClearsTheFault : Obligations.OnlyResetClearsTheFault := by
  unfold Obligations.OnlyResetClearsTheFault
  intro s t hf hstep ht
  obtain rfl : hostMove s = t := by injection (step_host (.inl hf)).symm.trans hstep
  exact (hostMove_of_fault hf).resolve_right (ht ▸ Bool.false_ne_true)

theorem hostMove_glyphRom (s : State) : (hostMove s).glyphRom = s.glyphRom := by
  obtain ⟨-, hm⟩ | ⟨rest, -, hm⟩ | ⟨b, rest, -, hm⟩ | ⟨w, rest, -, hm⟩ := hostMove_cases s <;> rw [hm]
  · rfl
  · obtain ⟨-, hrom, -⟩ := acceptWord_frame w { s with host := rest }
    exact hrom

theorem exec_glyphRom {i : Instr} {s t : State} (h : exec i s = .next t) : t.glyphRom = s.glyphRom := by
  obtain ⟨-, m, p, rfl, -⟩ | ⟨-, c, rfl, -⟩ | ⟨-, -, tr, b, rfl⟩ | ⟨-, -, tr, b, a, rfl⟩ | ⟨-, -, tr, b, a, rfl⟩
    | ⟨on, -, -, tr, b, a, rfl⟩ := exec_cases h <;> rfl

/-- Settles O54: the LUT is tabulated from the parameter, and each kind of step leaves it alone. -/
theorem theGlyphRomIsNeverWritten : Obligations.TheGlyphRomIsNeverWritten := by
  unfold Obligations.TheGlyphRomIsNeverWritten
  refine ⟨⟨glyphRomContent_wf, Memory.read_tabulate 475 Config.glyphByte⟩, ?_⟩
  intro s t hstep
  obtain ⟨-, rfl⟩ | ⟨-, -, i, -, ht⟩ | ⟨-, -, e, -, rfl⟩ := step_next_cases hstep
  · exact hostMove_glyphRom s
  · exact exec_glyphRom ht
  · rfl

/-! ### The writers of each field (10_state.md R38) -/

/-- Settles O53: each of the ways a command can end writes only the fields the table gives it; a reset in a transaction is told by
the number of resets. -/
theorem eachFieldHasItsWriters : Obligations.EachFieldHasItsWriters := by
  unfold Obligations.EachFieldHasItsWriters
  intro i s t ht hresets
  obtain ⟨hi, m, p, rfl, hpix, hfb, -⟩ | ⟨hi, c, rfl, -⟩ | ⟨-, -, tr, b, rfl⟩ | ⟨rfl, -, tr, b, a, rfl⟩ | ⟨rfl, -, tr, b, a, rfl⟩
    | ⟨on, rfl, -, tr, b, a, rfl⟩ := exec_cases ht
  · have fb : m ≠ s.fb → isBusCommand i = false ∧ ∀ x y, i ≠ .getpix x y :=
      fun h => ⟨hi, fun x y hg => h (hfb ⟨x, y, hg⟩)⟩
    have pix : p ≠ s.pix → ∃ x y, i = .getpix x y := by
      intro h; by_contra hg; push Not at hg; exact h (hpix hg)
    exact ⟨fb, by simp, by simp, by simp, pix, by simp [SameFaultRecord]⟩
  · simp [hi]
  · exact absurd hresets (Nat.succ_ne_self _)
  · simp [isBusCommand, SameFaultRecord]
  · simp [isBusCommand, SameFaultRecord]
  · simp [isBusCommand, SameFaultRecord]

/-! ### Reset and the register port -/

theorem freshFramebuffer_isSome (n a : Nat) : ((freshFramebuffer n).read a).isSome = true ↔ a < 360 :=
  Memory.wf_isSome (freshFramebuffer_wf n) a

/-- Settles O1: power-up and a reset taken in any state differ only in fields that the statement says nothing of. -/
theorem resetPutsEveryRegisterAtItsResetValue : Obligations.ResetPutsEveryRegisterAtItsResetValue := by
  unfold Obligations.ResetPutsEveryRegisterAtItsResetValue
  refine ⟨fun u => ⟨rfl, rfl, rfl, rfl, rfl⟩, ?_, ?_⟩
  · intro s rest hready hh
    rw [step_host hready, hostMove_cons hh]
    rfl
  · rintro s (rfl | ⟨u, rfl⟩)
    · exact ⟨rfl, rfl, rfl, rfl, rfl, rfl, rfl, rfl, rfl, rfl, rfl, rfl, freshFramebuffer_isSome 0, rfl, rfl, rfl⟩
    · exact ⟨rfl, rfl, rfl, rfl, rfl, rfl, rfl, rfl, rfl, rfl, rfl, rfl, freshFramebuffer_isSome _, rfl, rfl, rfl⟩

theorem busy_iff (s : State) : busy s = true ↔ s.fault = false ∧ (s.parse = .collect ∨ s.exec = true) := by
  simp [busy]

/-- The fields of a word laid out as STATUS is (10_state.md R24). -/
theorem statusLayout_fields : ∀ (xstat pstate : BitVec 2) (initFailed fault busy : Bool),
    let r : Word := 0#9 ++ xstat ++ BitVec.ofBool initFailed ++ BitVec.ofBool fault ++ pstate ++ BitVec.ofBool busy
    r.getLsbD 0 = busy ∧ r.extractLsb' 1 2 = pstate ∧ r.getLsbD 3 = fault ∧ r.getLsbD 4 = initFailed
      ∧ r.extractLsb' 5 2 = xstat ∧ r.extractLsb' 7 9 = 0#9 := by
  decide

theorem statusReg_fields (s : State) :
    (statusReg s).getLsbD 0 = busy s ∧ (statusReg s).extractLsb' 1 2 = s.pstate.code ∧ (statusReg s).getLsbD 3 = s.fault
      ∧ (statusReg s).getLsbD 4 = s.initFailed ∧ (statusReg s).extractLsb' 5 2 = s.xstat.code
      ∧ (statusReg s).extractLsb' 7 9 = 0#9 :=
  statusLayout_fields s.xstat.code s.pstate.code s.initFailed s.fault (busy s)

/-- Settles O20: STATUS by its fields, the other addresses by the codes of what they read. -/
theorem registerPortReads : Obligations.RegisterPortReads := by
  unfold Obligations.RegisterPortReads
  intro s
  obtain ⟨hbusy, hpstate, hfault, hinit, hxstat, hzero⟩ := statusReg_fields s
  refine ⟨?_, hpstate.trans ?_, hfault, hinit, hxstat.trans ?_, hzero, ?_, ?_, rfl, rfl, rfl, rfl, rfl⟩
  · exact (Bool.eq_iff_iff.mp hbusy).trans (busy_iff s)
  · cases s.pstate <;> rfl
  · cases s.xstat <;> rfl
  · show resultReg s = _
    unfold resultReg
    cases s.pix <;> rfl
  · show fcauseReg s = _
    unfold fcauseReg
    cases s.fcause <;> rfl

end Sys2Proof.Machine

/-! ## The memory family: what the framebuffer comes to under pixel writes -/

namespace Sys2Proof.Machine

/-- Over a canonical framebuffer a list of pixel writes lights its own points, and unlights nothing. -/
theorem lit_setPixels {m : Memory} (hm : Memory.wf 360 m = true) (ps : List (Int × Int)) {x y : Int}
    (hb : inBounds x y = true) : Lit (setPixels m ps) x y ↔ Lit m x y ∨ (x, y) ∈ ps :=
  setPixels_lit m ps x y hb ((Memory.wf_isSome hm _).mpr (pixelAddr_lt hb))

/-- Settles O23: the pixels lit after either list are those lit before and the list's in-bounds points, and a canonical framebuffer
is its lit pixels. -/
theorem pixelOrderMakesNoDifference : Obligations.PixelOrderMakesNoDifference := by
  unfold Obligations.PixelOrderMakesNoDifference
  intro m ps qs hm hsame
  refine framebuffer_ext (setPixels_wf ps hm) (setPixels_wf qs hm) fun x y hb => ?_
  calc Lit (setPixels m ps) x y
    _ ↔ Lit m x y ∨ (x, y) ∈ ps := lit_setPixels hm ps hb
    _ ↔ Lit m x y ∨ (x, y) ∈ qs := or_congr_right (hsame x y hb)
    _ ↔ Lit (setPixels m qs) x y := (lit_setPixels hm qs hb).symm

/-- An out-of-bounds pixel reads 0 (40_framebuffer.md R101). -/
theorem inBounds_of_lit {m : Memory} {x y : Int} (h : Lit m x y) : inBounds x y = true := by
  by_contra hb
  simp [Lit, getPixel, hb] at h

theorem lit_setPixels_of_lit {m : Memory} (hm : Memory.wf 360 m = true) (ps : List (Int × Int)) {x y : Int} (h : Lit m x y) :
    Lit (setPixels m ps) x y :=
  (lit_setPixels hm ps (inBounds_of_lit h)).mpr (.inl h)

/-- No move of the outside but a reset touches the framebuffer (10_state.md R38). -/
theorem hostMove_fb {s : State} (hresets : (hostMove s).resets = s.resets) : (hostMove s).fb = s.fb := by
  obtain ⟨-, hm⟩ | ⟨rest, -, hm⟩ | ⟨b, rest, -, hm⟩ | ⟨w, rest, -, hm⟩ := hostMove_cases s <;> rw [hm] at hresets ⊢
  · exact absurd hresets (Nat.succ_ne_self _)
  · obtain ⟨hfb, -⟩ := acceptWord_frame w { s with host := rest }
    exact hfb

/-- A command other than CLEAR writes the framebuffer through the bit-set port only (40_framebuffer.md R100), unless a reset comes in
one of its transactions. -/
theorem exec_fb {i : Instr} {s t : State} (ht : exec i s = .next t) (hi : i ≠ .clear) (hresets : t.resets = s.resets) :
    ∃ ps, t.fb = setPixels s.fb ps := by
  obtain ⟨-, m, p, rfl, -, -, hm⟩ | ⟨-, c, rfl, -⟩ | ⟨-, -, tr, b, rfl⟩ | ⟨-, -, tr, b, a, rfl⟩ | ⟨-, -, tr, b, a, rfl⟩
    | ⟨on, -, -, tr, b, a, rfl⟩ := exec_cases ht
  · exact hm.resolve_left fun ⟨hclear, _⟩ => hi hclear
  · exact ⟨[], rfl⟩
  · exact absurd hresets (Nat.succ_ne_self _)
  all_goals exact ⟨[], rfl⟩

/-- A step that executes no CLEAR and takes no reset writes the framebuffer through the bit-set port only (R100). -/
theorem step_fb {s t : State} (hstep : step s = .next t) (hresets : t.resets = s.resets)
    (hclear : ¬ (s.exec = true ∧ fetch s = .ok .clear)) : ∃ ps, t.fb = setPixels s.fb ps := by
  obtain ⟨-, rfl⟩ | ⟨-, hexec, i, hi, ht⟩ | ⟨-, -, e, -, rfl⟩ := step_next_cases hstep
  · exact ⟨[], hostMove_fb hresets⟩
  · exact exec_fb ht (fun h => hclear ⟨hexec, h ▸ hi⟩) hresets
  · exact ⟨[], rfl⟩

/-- Settles O52: such a step only sets pixels, and setting pixels unlights none. -/
theorem onlyClearUnlightsAPixel : Obligations.OnlyClearUnlightsAPixel := by
  unfold Obligations.OnlyClearUnlightsAPixel
  intro s t hm hstep hresets hclear x y hlit
  obtain ⟨ps, hfb⟩ := step_fb hstep hresets hclear
  exact hfb ▸ lit_setPixels_of_lit hm ps hlit

end Sys2Proof.Machine

/-! ## The encoding family: the decoder and the encoder agree, text words, operands, and the port's handshake -/

namespace Sys2Proof

/-- Settles O15: a command's words are its header word and the operand words it counts, from which the decoder builds the command. -/
theorem decodeOfEncodeIsTheCommand : Obligations.DecodeOfEncodeIsTheCommand := by
  unfold Obligations.DecodeOfEncodeIsTheCommand
  intro i rest hi
  exact decode_encode_append hi rest

/-! ### A legal header with its operand words (30_encoding.md R74–R76) -/

/-- A command is decoded from its header's word and as many operand words as that counts, whatever follows them, and from nothing
else. -/
theorem decode_eq_ok_iff {ws rest : List Word} {i : Instr} :
    decode ws = .ok (i, rest) ↔ ∃ k ops, ws = headerWordOf k :: (ops ++ rest) ∧ ops.length + 1 = cmdLen (headerWordOf k)
      ∧ i = buildFromWords (headerWordOf k) k ops := by
  constructor
  · intro h
    obtain ⟨hd, ops, k, rfl, hk, hmany, rfl, rfl⟩ := Machine.decode_ok h
    obtain rfl := eq_headerWordOf hk
    refine ⟨k, ops.take (cmdLen (headerWordOf k) - 1), by rw [List.take_append_drop], ?_, rfl⟩
    rw [List.length_take_of_le hmany, Nat.sub_add_cancel (cmdLen_pos _)]
  · rintro ⟨k, ops, rfl, hlen, rfl⟩
    simp [decode, decodeHeader_headerWordOf, ← hlen]

/-- The bytes of a text of AUX = `len` in its text words (R76). -/
def textOf (len : Byte) (ws : List Word) : List Byte := (unpackText ws).take len.toNat

theorem length_textOf {len : Byte} {ws : List Word} (hws : ws.length = ceilHalf len.toNat) :
    (textOf len ws).length = len.toNat := by
  rw [textOf, List.length_take, unpackText_length, hws, ceilHalf]
  omega

/-- The low byte of each text word comes first. -/
theorem getElem?_textOf {len : Byte} {ws : List Word} {j : Nat} (hj : j < len.toNat) :
    (textOf len ws)[j]? = ws[j / 2]?.map fun w => if j % 2 = 0 then w.lo else w.hi := by
  rw [textOf, List.getElem?_take_of_lt hj, getElem?_unpackText]

theorem lenAux_textOf {len : Byte} {ws : List Word} (hws : ws.length = ceilHalf len.toNat) :
    lenAux (textOf len ws) = len := by
  rw [lenAux, length_textOf hws, BitVec.ofNat_toNat, BitVec.setWidth_eq]

theorem buildFromWords_text (len : Byte) (x y : Word) (ws : List Word) :
    buildFromWords (headerWordOf (.text len)) (.text len) (x :: y :: ws) = .text x y (textOf len ws) := by
  simp [buildFromWords, textStart_headerWordOf, Header.build, textOf]

theorem buildFromWords_textc (len : Byte) (l : Word) (ws : List Word) :
    buildFromWords (headerWordOf (.textc len)) (.textc len) (l :: ws) = .textc l (textOf len ws) := by
  simp [buildFromWords, textStart_headerWordOf, Header.build, textOf]

/-- Settles O18: the text is the first AUX bytes of its words, the low byte of each first. -/
theorem textWordsCarryTwoBytesLowFirst : Obligations.TextWordsCarryTwoBytesLowFirst := by
  unfold Obligations.TextWordsCarryTwoBytesLowFirst
  intro aux a b ws rest hws
  have hws : ws.length = ceilHalf aux.toNat := hws
  have htext : (a :: b :: ws).length + 1 = cmdLen (headerWordOf (.text aux)) := by
    simp only [cmdLen_headerWordOf, List.length_cons, hws]; omega
  have htextc : (a :: ws).length + 1 = cmdLen (headerWordOf (.textc aux)) := by
    simp only [cmdLen_headerWordOf, List.length_cons, hws]; omega
  refine ⟨textOf aux ws, length_textOf hws, fun j hj => getElem?_textOf hj, ?_, ?_⟩
  · exact decode_eq_ok_iff.mpr ⟨.text aux, a :: b :: ws, rfl, htext, (buildFromWords_text aux a b ws).symm⟩
  · exact decode_eq_ok_iff.mpr ⟨.textc aux, a :: ws, rfl, htextc, (buildFromWords_textc aux a ws).symm⟩

/-! ### From words to the command and back to its words (R76) -/

/-- The words `vs` begin with the words `ws`; only, if `padded`, the high byte of the last of `ws` may be another in `vs`: it is the
padding byte, which no rule reads. -/
def BeginsWith (padded : Prop) (ws vs : List Word) : Prop :=
  ∀ (k : Nat) (w : Word), ws[k]? = some w →
    ∃ v, vs[k]? = some v ∧ (v = w ∨ (padded ∧ k + 1 = ws.length ∧ v.lo = w.lo))

theorem BeginsWith.refl (padded : Prop) (ws : List Word) : BeginsWith padded ws ws :=
  fun _ w hw => ⟨w, hw, .inl rfl⟩

theorem BeginsWith.cons {padded : Prop} {ws vs : List Word} (h : BeginsWith padded ws vs) (u : Word) :
    BeginsWith padded (u :: ws) (u :: vs) := by
  intro k w hw
  cases k with
  | zero => exact ⟨w, hw, .inl rfl⟩
  | succ k =>
    obtain ⟨v, hv, hsame⟩ := h k w hw
    exact ⟨v, hv, hsame.imp_right fun ⟨hp, hk, hlo⟩ => ⟨hp, congrArg (· + 1) hk, hlo⟩⟩

theorem BeginsWith.append {padded : Prop} {ws vs : List Word} (h : BeginsWith padded ws vs) (rest : List Word) :
    BeginsWith padded ws (vs ++ rest) := by
  intro k w hw
  obtain ⟨v, hv, hsame⟩ := h k w hw
  obtain ⟨hk, -⟩ := List.getElem?_eq_some_iff.mp hv
  exact ⟨v, (List.getElem?_append_left hk).trans hv, hsame⟩

/-- Packing the bytes unpacked from text words gives the words back, but for the padding byte of an odd length. -/
theorem beginsWith_packText {n : Nat} {ws : List Word} (hws : ws.length = ceilHalf n) :
    BeginsWith (n % 2 = 1) (packText ((unpackText ws).take n)) ws := by
  induction ws generalizing n with
  | nil => rw [unpackText, List.take_nil]; exact .refl _ []
  | cons v vs ih =>
    match n, hws with
    | 1, hws =>
      obtain rfl : vs = [] := List.length_eq_zero_iff.mp (Nat.succ.inj hws)
      intro k w hw
      obtain ⟨rfl, rfl⟩ : k = 0 ∧ Word.ofBytes 0x00#8 v.lo = w := by
        simpa [unpackText, packText, List.getElem?_singleton] using hw
      exact ⟨v, rfl, .inr ⟨rfl, rfl, (lo_ofBytes _ _).symm⟩⟩
    | n + 2, hws =>
      have hvs : vs.length = ceilHalf n := by simp only [List.length_cons, ceilHalf] at hws ⊢; omega
      have hpack : packText ((unpackText (v :: vs)).take (n + 2)) = v :: packText ((unpackText vs).take n) := by
        simp [unpackText, packText]
      rw [hpack, Nat.add_mod_right]
      exact (ih hvs).cons v

/-- Whatever the operand words are, a text is no longer than AUX says: the decoder makes well-formed commands only. -/
theorem wellFormed_buildFromWords (h : Word) (k : Header) (ops : List Word) : (buildFromWords h k ops).wellFormed = true := by
  have hlen (len : Byte) (t : List Byte) : (t.take len.toNat).length ≤ Config.txtMax :=
    (List.length_take_le _ _).trans (Nat.le_of_lt_succ len.isLt)
  cases k with
  | text len | textc len => exact decide_eq_true (hlen len _)
  | clear | pixel | line | rect | fill | getpix | init | update | power => rfl

section
variable {len : Byte} {ops : List Word}

theorem text_operands (hlen : ops.length + 1 = cmdLen (headerWordOf (.text len))) :
    ∃ x y ws, ops = x :: y :: ws ∧ ws.length = ceilHalf len.toNat := by
  simp only [cmdLen_headerWordOf] at hlen
  match ops with
  | [] | [_] => simp only [List.length_cons, List.length_nil] at hlen; omega
  | x :: y :: ws => exact ⟨x, y, ws, rfl, by simp only [List.length_cons] at hlen; omega⟩

theorem textc_operands (hlen : ops.length + 1 = cmdLen (headerWordOf (.textc len))) :
    ∃ l ws, ops = l :: ws ∧ ws.length = ceilHalf len.toNat := by
  simp only [cmdLen_headerWordOf] at hlen
  match ops with
  | [] => simp only [List.length_nil] at hlen; omega
  | l :: ws => exact ⟨l, ws, rfl, by simp only [List.length_cons] at hlen; omega⟩

end

section
variable {k : Header} {ops : List Word}

theorem header_buildFromWords (hlen : ops.length + 1 = cmdLen (headerWordOf k)) :
    (buildFromWords (headerWordOf k) k ops).header = k := by
  cases k with
  | text len =>
    obtain ⟨x, y, ws, rfl, hws⟩ := text_operands hlen
    rw [buildFromWords_text, Instr.header, lenAux_textOf hws]
  | textc len =>
    obtain ⟨l, ws, rfl, hws⟩ := textc_operands hlen
    rw [buildFromWords_textc, Instr.header, lenAux_textOf hws]
  | clear | pixel | line | rect | fill | getpix | init | update | power => rfl

theorem length_encode_buildFromWords (hlen : ops.length + 1 = cmdLen (headerWordOf k)) :
    (encode (buildFromWords (headerWordOf k) k ops)).length = ops.length + 1 := by
  rw [length_encode (wellFormed_buildFromWords ..), header_buildFromWords hlen, hlen]

theorem beginsWith_encode_buildFromWords (hlen : ops.length + 1 = cmdLen (headerWordOf k)) :
    BeginsWith (Machine.hasPadding (buildFromWords (headerWordOf k) k ops) = true)
      (encode (buildFromWords (headerWordOf k) k ops)) (headerWordOf k :: ops) := by
  cases k with
  | text len =>
    obtain ⟨x, y, ws, rfl, hws⟩ := text_operands hlen
    have hpadding : Machine.hasPadding (.text x y (textOf len ws)) = true ↔ len.toNat % 2 = 1 := by
      simp [Machine.hasPadding, length_textOf hws]
    rw [buildFromWords_text, encode, lenAux_textOf hws, hpadding]
    exact (((beginsWith_packText hws).cons y).cons x).cons _
  | textc len =>
    obtain ⟨l, ws, rfl, hws⟩ := textc_operands hlen
    have hpadding : Machine.hasPadding (.textc l (textOf len ws)) = true ↔ len.toNat % 2 = 1 := by
      simp [Machine.hasPadding, length_textOf hws]
    rw [buildFromWords_textc, encode, lenAux_textOf hws, hpadding]
    exact ((beginsWith_packText hws).cons l).cons _
  | clear | init | update | power on =>
    obtain rfl : ops = [] := List.length_eq_zero_iff.mp (Nat.succ.inj (hlen.trans (cmdLen_headerWordOf _)))
    exact .refl _ _
  | pixel | getpix =>
    obtain ⟨x, y, rfl⟩ := List.length_eq_two.mp (Nat.succ.inj hlen)
    exact .refl _ _
  | line | rect | fill =>
    obtain ⟨a, b, c, d, rfl⟩ := List.length_eq_four.mp (Nat.succ.inj hlen)
    exact .refl _ _

end

/-- Settles O16: the decoder has read a legal header and the operand words it counts, and the command's words begin so. -/
theorem decodedWordsAreTheEncodedWords : Obligations.DecodedWordsAreTheEncodedWords := by
  unfold Obligations.DecodedWordsAreTheEncodedWords
  intro ws rest i h
  obtain ⟨k, ops, rfl, hlen, rfl⟩ := decode_eq_ok_iff.mp h
  have hcount := length_encode_buildFromWords hlen
  refine ⟨wellFormed_buildFromWords .., ?_, ?_, (beginsWith_encode_buildFromWords hlen).append rest⟩
  · simp [hcount]
  · rw [hcount, List.drop_succ_cons, List.drop_left]

/-! ### The examples of the spec (30_encoding.md R83) -/

/-- A line of assembler text that parses to a well-formed command assembles to its words, and these decode to it. -/
theorem assembleLine_and_decode {line : List Char} {ws : List Word} {i : Instr}
    (hline : Machine.parseLine line = some (some i)) (hi : i.wellFormed = true) (hws : encode i = ws) :
    Machine.assembleLine line = some ws ∧ decode ws = .ok (i, []) := by
  subst hws
  exact ⟨by simp [Machine.assembleLine, hline], by simpa using decode_encode_append hi []⟩

/-- Settles O17: each line parses to its well-formed command, whose words are those shown. -/
theorem specEncodingExamples : Obligations.SpecEncodingExamples := by
  unfold Obligations.SpecEncodingExamples
  intro p hp
  refine assembleLine_and_decode ?_ ?_ ?_
  · revert p; decide
  · revert p; decide
  · revert p; decide

end Sys2Proof

namespace Sys2Proof.Machine

/-! ### Operand words (30_encoding.md R72, 00_scope.md R14) -/

theorem sext16_eq_toInt (w : Word) : sext16 w = w.toInt := by
  rw [sext16, BitVec.toInt_eq_msb_cond, BitVec.msb_eq_getLsbD_last]
  rfl

/-- Settles O19: R14's formula is the integer of which the word is the two's complement pattern. -/
theorem operandsAreTwosComplement : Obligations.OperandsAreTwosComplement := by
  unfold Obligations.OperandsAreTwosComplement
  intro w
  refine ⟨rfl, ?_⟩
  rw [sext16_eq_toInt]
  exact ⟨BitVec.le_toInt w, Int.le_of_lt_add_one BitVec.toInt_lt, BitVec.ofInt_toInt⟩

/-! ### The handshake of the command port (30_encoding.md R70) -/

theorem cmdReady_eq_true_iff (s : State) : cmdReady true s = true ↔ s.fault = true ∨ s.exec = false := by
  simp [cmdReady]

theorem cmdReady_eq_false_iff (s : State) : cmdReady true s = false ↔ s.exec = true ∧ s.fault = false := by
  simp [cmdReady, and_comm]

/-- No command takes anything from the command port. -/
theorem exec_host {i : Instr} {s t : State} (h : exec i s = .next t) : t.host = s.host := by
  obtain ⟨-, m, p, rfl, -⟩ | ⟨-, c, rfl, -⟩ | ⟨-, -, tr, b, rfl⟩ | ⟨-, -, tr, b, a, rfl⟩ | ⟨-, -, tr, b, a, rfl⟩
    | ⟨on, -, -, tr, b, a, rfl⟩ := exec_cases h <;> rfl

/-- Settles O6: while `cmd_ready` is 0 the step is the engine's, which leaves the port alone; while it is 1 the step takes the word. -/
theorem wordsAreAcceptedOnlyWhenReady : Obligations.WordsAreAcceptedOnlyWhenReady := by
  unfold Obligations.WordsAreAcceptedOnlyWhenReady
  refine ⟨cmdReady_eq_false_iff, ?_, ?_⟩
  · intro s t hready hstep
    obtain ⟨hhost, -⟩ | ⟨-, -, i, -, ht⟩ | ⟨-, -, e, -, rfl⟩ := step_next_cases hstep
    · exact absurd ((cmdReady_eq_true_iff s).mpr hhost) (hready ▸ Bool.false_ne_true)
    · exact exec_host ht
    · rfl
  · intro s w rest hready hh
    obtain ⟨-, -, -, -, -, -, -, hhost, -⟩ := acceptWord_frame w { s with host := rest }
    exact ⟨_, step_host ((cmdReady_eq_true_iff s).mp hready), (congrArg State.host (hostMove_cons hh)).trans hhost⟩

end Sys2Proof.Machine

/-! ## The framebuffer family: the bit ports, CLEAR, PIXEL and GETPIX -/

namespace Sys2Proof.Machine

/-! ### Where a pixel is (20_memory.md R51, 40_framebuffer.md R102) -/

theorem inBounds_natCast {x y : Nat} (hx : x < 72) (hy : y < 40) : inBounds x y = true := by
  rw [inBounds_iff]; omega

theorem inBounds_eq_false_iff {x y : Int} : inBounds x y = false ↔ ¬ ((0 ≤ x ∧ x < 72) ∧ 0 ≤ y ∧ y < 40) := by
  rw [← inBounds_iff, Bool.not_eq_true]

theorem pixelAddr_natCast (x y : Nat) : pixelAddr x y = y / 8 * 72 + x := rfl

theorem pixelBit_natCast (y : Nat) : pixelBit y = y % 8 := rfl

/-! ### The bit-read port -/

theorem getPixel_of_read {m : Memory} {x y : Int} {b : Byte} (hin : inBounds x y = true)
    (hread : m.read (pixelAddr x y) = some b) : getPixel m x y = some (b.getLsbD (pixelBit y)) := by
  simp [getPixel, hin, hread]

theorem getPixel_outOfBounds (m : Memory) {x y : Int} (hout : inBounds x y = false) : getPixel m x y = some false := by
  simp [getPixel, hout]

/-- In a canonical framebuffer every in-bounds pixel has its byte. -/
theorem read_pixelAddr {m : Memory} (hm : Memory.wf 360 m = true) {x y : Int} (hin : inBounds x y = true) :
    ∃ b, m.read (pixelAddr x y) = some b :=
  Memory.wf_read hm (pixelAddr_lt hin)

/-- Settles O22: a pixel of natural coordinates stands at the address and the bit named. -/
theorem theBitReadPort : Obligations.TheBitReadPort := by
  unfold Obligations.TheBitReadPort
  refine ⟨fun m x y b hx hy hread => ?_, fun m x y hout => getPixel_outOfBounds m (inBounds_eq_false_iff.mpr hout)⟩
  rw [← pixelAddr_natCast] at hread
  rw [getPixel_of_read (inBounds_natCast hx hy) hread, pixelBit_natCast]

/-! ### The bit-set port -/

/-- Settles O21: in bounds the port is one OR into the pixel's byte, which a canonical framebuffer holds; and each command but CLEAR
ends with the framebuffer drawn on. -/
theorem theBitSetPort : Obligations.TheBitSetPort := by
  unfold Obligations.TheBitSetPort
  refine ⟨fun m x y hm hx hy => ?_, fun m x y hout => setPixel_outOfBounds m (inBounds_eq_false_iff.mpr hout),
    fun i s t => exec_fb⟩
  have hin := inBounds_natCast hx hy
  obtain ⟨b, hb⟩ := read_pixelAddr hm hin
  refine ⟨b, hb, fun a => ?_⟩
  rw [setPixel_read m hin, pixelAddr_natCast]
  split
  · next ha => rw [ha, ← pixelAddr_natCast, hb]; rfl
  · rfl

/-! ### The commands' meanings and frame (40_framebuffer.md R103–R105, 10_state.md R38) -/

theorem exec_clear (s : State) : exec .clear s = .next (finish { s with fb := s.fb.clear }) := rfl

theorem exec_pixel (x y : Word) (s : State) : exec (.pixel x y) s = .next (draw [(sext16 x, sext16 y)] s) := rfl

theorem exec_getpix {x y : Word} {s : State} {p : Bool} (hp : getPixel s.fb (sext16 x) (sext16 y) = some p) :
    exec (.getpix x y) s = .next (finish { s with pix := p }) := by
  simp [exec, execGetpix, hp]

/-- A command that writes the framebuffer and PIX and ends leaves all else alone. -/
theorem finish_endedQuietly (m : Memory) (p : Bool) (s : State) : EndedQuietly s (finish { s with fb := m, pix := p }) :=
  ⟨rfl, rfl, rfl, rfl, ⟨rfl, rfl, rfl⟩, ⟨rfl, rfl, rfl, rfl, rfl⟩, ⟨rfl, rfl, rfl, rfl, rfl, rfl⟩, rfl⟩

/-! ### CLEAR -/

/-- A pixel of a zero byte is unlit. -/
theorem getPixel_clear {m : Memory} (hm : Memory.wf 360 m = true) (x y : Int) : getPixel m.clear x y = some false := by
  cases hin : inBounds x y with
  | false => exact getPixel_outOfBounds _ hin
  | true =>
    obtain ⟨b, hb⟩ := read_pixelAddr hm hin
    have hzero : m.clear.read (pixelAddr x y) = some 0x00#8 := by rw [Memory.read_clear, hb]; rfl
    rw [getPixel_of_read hin hzero, BitVec.getLsbD_zero]

/-- Settles O24: CLEAR's one sweep, read byte by byte and pixel by pixel. -/
theorem clearZeroesTheFramebuffer : Obligations.ClearZeroesTheFramebuffer := by
  unfold Obligations.ClearZeroesTheFramebuffer
  intro s
  exact ⟨_, exec_clear s, Memory.read_clear s.fb, getPixel_clear, rfl, finish_endedQuietly _ s.pix s⟩

/-! ### PIXEL -/

/-- Settles O25: PIXEL draws a list of one point. -/
theorem pixelSetsItsPixel : Obligations.PixelSetsItsPixel := by
  unfold Obligations.PixelSetsItsPixel
  intro s x y hm
  have hpoint (px py : Int) : (px, py) ∈ [(sext16 x, sext16 y)] ↔ px = sext16 x ∧ py = sext16 y := by
    rw [List.mem_singleton, Prod.mk.injEq]
  exact ⟨_, exec_pixel x y s, setPixels_setsExactly s.fb hm _ _ fun px py _ => hpoint px py, rfl, draw_endedQuietly _ s⟩

/-! ### GETPIX -/

/-- RESULT shows PIX in bit 0 (10_state.md R25). -/
theorem regRead_result (s : State) : regRead s 1#3 = if s.pix then 0x0001#16 else 0x0000#16 := by
  obtain ⟨-, -, -, -, -, -, hresult, -⟩ := registerPortReads s
  exact hresult

/-- Settles O26: in bounds a canonical framebuffer holds the pixel's byte, and out of bounds the port reads 0, so that GETPIX runs in
both cases. -/
theorem getpixReadsItsPixel : Obligations.GetpixReadsItsPixel := by
  unfold Obligations.GetpixReadsItsPixel
  intro s x y hm
  cases hin : inBounds (sext16 x) (sext16 y) with
  | true =>
    obtain ⟨b, hb⟩ := read_pixelAddr hm hin
    exact ⟨_, exec_getpix (getPixel_of_read hin hb), fun _ => ⟨b, hb, rfl⟩, nofun, regRead_result _, rfl,
      finish_endedQuietly s.fb _ s⟩
  | false =>
    exact ⟨_, exec_getpix (getPixel_outOfBounds _ hin), nofun, fun _ => rfl, regRead_result _, rfl,
      finish_endedQuietly s.fb _ s⟩

end Sys2Proof.Machine

/-! ## The drawing family: the line's walk, the rectangle outline and the fill -/

namespace Sys2Proof.Machine

/-! ### The loop as the rule writes it (41_drawing.md R121) -/

theorem lineStart_eq (x0 y0 x1 y1 : Int) :
    lineStart x0 y0 x1 y1 =
      { x := x0, y := y0, dx := |x1 - x0|, dy := |y1 - y0|, sx := (x1 - x0).sign, sy := (y1 - y0).sign
        err := |x1 - x0| - |y1 - y0| } := by
  simp only [lineStart, absInt_eq, signInt_eq]

/-- Of what the y update reads, the x update writes nothing but `err`: both tests may be read at the loop head. -/
theorem lineStep_eq (r : LineRegs) :
    lineStep r =
      let e2 := 2 * r.err
      let r' := if e2 > -r.dy then { r with err := r.err - r.dy, x := r.x + r.sx } else r
      if e2 < r.dx then { r' with err := r'.err + r.dx, y := r'.y + r.sy } else r' := by
  unfold lineStep lineStepY lineStepX
  by_cases hx : 2 * r.err > -r.dy
  · simp only [if_pos hx]
  · simp only [if_neg hx]

@[simp] theorem lineStep_sx (r : LineRegs) : (lineStep r).sx = r.sx := by
  rw [lineStep_eq]; dsimp only; split <;> split <;> rfl

theorem lineStep_x (r : LineRegs) : (lineStep r).x = r.x ∨ (lineStep r).x = r.x + r.sx := by
  rw [lineStep_eq]; dsimp only
  by_cases hx : 2 * r.err > -r.dy
  · right; rw [if_pos hx]; split <;> rfl
  · left; rw [if_neg hx]; split <;> rfl

/-! ### The engine treats x and y alike

Exchanging the axes changes the sign of the error term and nothing else, so what holds of x holds of y. -/

/-- The registers of the line with x and y exchanged. -/
def exchangeAxes (r : LineRegs) : LineRegs :=
  { x := r.y, y := r.x, dx := r.dy, dy := r.dx, sx := r.sy, sy := r.sx, err := -r.err }

theorem exchangeAxes_lineStart (x0 y0 x1 y1 : Int) :
    exchangeAxes (lineStart x0 y0 x1 y1) = lineStart y0 x0 y1 x1 := by
  simp only [exchangeAxes, lineStart, Int.neg_sub]

/-- Both updates of an iteration test one `e2` against registers that neither writes, so their order does not matter. -/
theorem lineStepX_lineStepY_comm (e2 : Int) (r : LineRegs) : lineStepX e2 (lineStepY e2 r) = lineStepY e2 (lineStepX e2 r) := by
  unfold lineStepX lineStepY
  by_cases hx : e2 > -r.dy
  · by_cases hy : e2 < r.dx
    · simp only [if_pos hx, if_pos hy, LineRegs.mk.injEq, true_and]; omega
    · simp only [if_pos hx, if_neg hy]
  · by_cases hy : e2 < r.dx
    · simp only [if_neg hx, if_pos hy]
    · simp only [if_neg hx, if_neg hy]

theorem exchangeAxes_lineStepX (e2 : Int) (r : LineRegs) :
    exchangeAxes (lineStepX e2 r) = lineStepY (-e2) (exchangeAxes r) := by
  have htest : -e2 < r.dy ↔ e2 > -r.dy := neg_lt
  simp only [lineStepX, lineStepY, exchangeAxes, htest]
  split
  · simp only [LineRegs.mk.injEq, true_and]; omega
  · rfl

theorem exchangeAxes_lineStepY (e2 : Int) (r : LineRegs) :
    exchangeAxes (lineStepY e2 r) = lineStepX (-e2) (exchangeAxes r) := by
  have htest : -e2 > -r.dx ↔ e2 < r.dx := neg_lt_neg_iff
  simp only [lineStepX, lineStepY, exchangeAxes, htest]
  split
  · simp only [LineRegs.mk.injEq, true_and]; omega
  · rfl

theorem exchangeAxes_lineStep : Function.Commute exchangeAxes lineStep := fun r => by
  have he2 : 2 * (exchangeAxes r).err = -(2 * r.err) := Int.mul_neg 2 r.err
  rw [lineStep, lineStep, exchangeAxes_lineStepY, exchangeAxes_lineStepX, lineStepX_lineStepY_comm, he2]

section
variable {x0 y0 x1 y1 : Int}

theorem exchangeAxes_lineStep_iterate (k : Nat) :
    exchangeAxes (lineStep^[k] (lineStart x0 y0 x1 y1)) = lineStep^[k] (lineStart y0 x0 y1 x1) := by
  rw [(exchangeAxes_lineStep.iterate_right k).eq, exchangeAxes_lineStart]

/-! ### The engine's registers after `k` iterations (R122) -/

theorem lineStep_iterate_sx (k : Nat) : (lineStep^[k] (lineStart x0 y0 x1 y1)).sx = (x1 - x0).sign := by
  induction k with
  | zero => exact signInt_eq _
  | succ k ih => rw [lineStep_iterate_succ, lineStep_sx, ih]

/-- x moves in its direction only (R122 item 4). -/
theorem lineStep_iterate_succ_x (k : Nat) :
    (lineStep^[k + 1] (lineStart x0 y0 x1 y1)).x = (lineStep^[k] (lineStart x0 y0 x1 y1)).x
      ∨ (lineStep^[k + 1] (lineStart x0 y0 x1 y1)).x = (lineStep^[k] (lineStart x0 y0 x1 y1)).x + (x1 - x0).sign := by
  rw [lineStep_iterate_succ, ← lineStep_iterate_sx k]
  exact lineStep_x _

/-- y moves in its direction only (R122 item 4). -/
theorem lineStep_iterate_succ_y (k : Nat) :
    (lineStep^[k + 1] (lineStart x0 y0 x1 y1)).y = (lineStep^[k] (lineStart x0 y0 x1 y1)).y
      ∨ (lineStep^[k + 1] (lineStart x0 y0 x1 y1)).y = (lineStep^[k] (lineStart x0 y0 x1 y1)).y + (y1 - y0).sign := by
  have h := lineStep_iterate_succ_x (x0 := y0) (y0 := x0) (x1 := y1) (y1 := x1) k
  rwa [← exchangeAxes_lineStep_iterate (x0 := x0), ← exchangeAxes_lineStep_iterate (x0 := x0)] at h

/-- In a line no higher than wide x moves in every iteration. -/
theorem lineStep_iterate_x_of_wide (hw : (y1 - y0).natAbs ≤ (x1 - x0).natAbs) {k : Nat} (hk : k ≤ (x1 - x0).natAbs) :
    (lineStep^[k] (lineStart x0 y0 x1 y1)).x = x0 + (x1 - x0).sign * k := by
  cases k with
  | zero => simp [lineStart]
  | succ k =>
    obtain ⟨j, hr, -⟩ := lineStep_iterate_wide x0 y0 x1 y1 (Int.ofNat_le.mpr hw) (Int.natCast_pos.mpr (by omega)) (k + 1)
    rw [hr, signInt_eq]

/-- In a horizontal line y does not move (R122 item 6). -/
theorem lineStep_iterate_y_of_horizontal (k : Nat) : (lineStep^[k] (lineStart x0 y0 x1 y0)).y = y0 := by
  induction k with
  | zero => rfl
  | succ k ih => simpa [ih] using lineStep_iterate_succ_y (x0 := x0) (y0 := y0) (x1 := x1) (y1 := y0) k

/-- The error term at the loop heads (R122 item 5). -/
theorem natAbs_lineStep_iterate_err {k : Nat} (hk : k ≤ max (x1 - x0).natAbs (y1 - y0).natAbs) :
    (lineStep^[k] (lineStart x0 y0 x1 y1)).err.natAbs ≤ 2 * max (x1 - x0).natAbs (y1 - y0).natAbs := by
  wlog hw : (y1 - y0).natAbs ≤ (x1 - x0).natAbs generalizing x0 y0 x1 y1 with hother
  · rw [max_comm] at hk ⊢
    have h := hother hk (Nat.le_of_not_le hw)
    rwa [← exchangeAxes_lineStep_iterate, exchangeAxes, Int.natAbs_neg] at h
  cases k with
  | zero => simp only [Function.iterate_zero, id_eq, lineStart, absInt]; omega
  | succ k =>
    obtain ⟨j, hr, hlo, hhi⟩ :=
      lineStep_iterate_wide x0 y0 x1 y1 (Int.ofNat_le.mpr hw) (Int.natCast_pos.mpr (by omega)) (k + 1)
    rw [hr]
    simp only [absInt] at hlo hhi ⊢
    omega

/-! ### The walk's points -/

/-- The engine's position after `k` iterations. -/
def linePosition (x0 y0 x1 y1 : Int) (k : Nat) : Int × Int :=
  ((lineStep^[k] (lineStart x0 y0 x1 y1)).x, (lineStep^[k] (lineStart x0 y0 x1 y1)).y)

theorem linePosition_swap (k : Nat) : (linePosition x0 y0 x1 y1 k).swap = linePosition y0 x0 y1 x1 k := by
  rw [linePosition, linePosition, ← exchangeAxes_lineStep_iterate]
  rfl

theorem max_absInt_toNat (a b : Int) : (max (absInt a) (absInt b)).toNat = max a.natAbs b.natAbs := by
  simp only [absInt]; omega

theorem linePoints_eq_map_linePosition (x0 y0 x1 y1 : Int) :
    linePoints x0 y0 x1 y1 =
      (List.range (max (x1 - x0).natAbs (y1 - y0).natAbs + 1)).map (linePosition x0 y0 x1 y1) := by
  rw [linePoints_eq_map, max_absInt_toNat]
  rfl

theorem length_linePoints (x0 y0 x1 y1 : Int) :
    (linePoints x0 y0 x1 y1).length = max (x1 - x0).natAbs (y1 - y0).natAbs + 1 := by
  rw [linePoints_eq_map_linePosition, List.length_map, List.length_range]

theorem getElem?_linePoints_eq_some {k : Nat} {p : Int × Int} :
    (linePoints x0 y0 x1 y1)[k]? = some p ↔
      k ≤ max (x1 - x0).natAbs (y1 - y0).natAbs ∧ linePosition x0 y0 x1 y1 k = p := by
  simp [linePoints_eq_map_linePosition, List.getElem?_eq_some_iff]

theorem mem_linePoints {p : Int × Int} :
    p ∈ linePoints x0 y0 x1 y1 ↔
      ∃ k, k ≤ max (x1 - x0).natAbs (y1 - y0).natAbs ∧ linePosition x0 y0 x1 y1 k = p := by
  simp only [List.mem_iff_getElem?, getElem?_linePoints_eq_some]

theorem swap_mem_linePoints {p : Int × Int} : p.swap ∈ linePoints y0 x0 y1 x1 ↔ p ∈ linePoints x0 y0 x1 y1 := by
  simp only [mem_linePoints, ← linePosition_swap (x0 := x0), Prod.swap_inj, max_comm]

/-- The walk is at the last endpoint after `max dx dy` iterations, and not before (R122 items 1 and 2). -/
theorem linePosition_eq_end_iff {k : Nat} (hk : k ≤ max (x1 - x0).natAbs (y1 - y0).natAbs) :
    linePosition x0 y0 x1 y1 k = (x1, y1) ↔ k = max (x1 - x0).natAbs (y1 - y0).natAbs := by
  obtain ⟨hlast, hearlier⟩ := lineStep_iterate_end x0 y0 x1 y1
  rw [max_absInt_toNat] at hlast hearlier
  rw [linePosition, Prod.mk.injEq]
  constructor
  · intro hend
    by_contra hne
    exact hearlier k (lt_of_le_of_ne hk hne) hend
  · rintro rfl
    exact hlast

/-- Steps of unit length from `0` towards `d` lead to different places as long as they do not pass `d`. -/
theorem sign_mul_injOn {d : Int} {a b : Nat} (ha : a ≤ d.natAbs) (hb : b ≤ d.natAbs) (h : d.sign * a = d.sign * b) : a = b := by
  by_cases hd : d = 0
  · subst hd; omega
  · exact Int.ofNat_inj.mp (mul_left_cancel₀ (mt Int.sign_eq_zero_iff_zero.mp hd) h)

/-- The loop plots no point twice, because x, or else y, moves in every iteration (R122 item 1). -/
theorem linePosition_injOn {a b : Nat} (ha : a ≤ max (x1 - x0).natAbs (y1 - y0).natAbs)
    (hb : b ≤ max (x1 - x0).natAbs (y1 - y0).natAbs) (h : linePosition x0 y0 x1 y1 a = linePosition x0 y0 x1 y1 b) : a = b := by
  wlog hw : (y1 - y0).natAbs ≤ (x1 - x0).natAbs generalizing x0 y0 x1 y1 with hother
  · rw [max_comm] at ha hb
    refine hother ha hb ?_ (Nat.le_of_not_le hw)
    rw [← linePosition_swap (x0 := x0), ← linePosition_swap (x0 := x0), h]
  rw [max_eq_left hw] at ha hb
  obtain ⟨hx, -⟩ := Prod.mk.inj h
  rw [lineStep_iterate_x_of_wide hw ha, lineStep_iterate_x_of_wide hw hb] at hx
  exact sign_mul_injOn ha hb (Int.add_left_cancel hx)

end

/-- Settles O32: the walk's points are the positions after 0, …, `max dx dy` iterations; they differ, and the last is the endpoint. -/
theorem theWalkRunsFromEndToEnd : Obligations.TheWalkRunsFromEndToEnd := by
  unfold Obligations.TheWalkRunsFromEndToEnd
  intro x0 y0 x1 y1
  refine ⟨length_linePoints x0 y0 x1 y1, ?_, ?_, ?_⟩
  · rw [List.head?_eq_getElem?, getElem?_linePoints_eq_some]
    exact ⟨Nat.zero_le _, rfl⟩
  · rw [List.getLast?_eq_getElem?, length_linePoints, Nat.add_sub_cancel, getElem?_linePoints_eq_some]
    exact ⟨le_rfl, (linePosition_eq_end_iff le_rfl).mpr rfl⟩
  · rw [linePoints_eq_map_linePosition]
    refine List.Nodup.map_on (fun a ha b hb h => ?_) List.nodup_range
    exact linePosition_injOn (Nat.lt_succ_iff.mp (List.mem_range.mp ha)) (Nat.lt_succ_iff.mp (List.mem_range.mp hb)) h

/-- Settles O33: consecutive points are one iteration apart. -/
theorem theWalkIsEightConnectedAndMonotone : Obligations.TheWalkIsEightConnectedAndMonotone := by
  unfold Obligations.TheWalkIsEightConnectedAndMonotone
  intro x0 y0 x1 y1 k a b ha hb
  obtain ⟨hk, rfl⟩ := getElem?_linePoints_eq_some.mp ha
  obtain ⟨hk', rfl⟩ := getElem?_linePoints_eq_some.mp hb
  exact ⟨fun h => absurd (linePosition_injOn hk hk' h) k.lt_succ_self.ne, lineStep_iterate_succ_x k, lineStep_iterate_succ_y k⟩

/-- Settles O34: the general bound at every loop head, and what it comes to for 16-bit operands. -/
theorem theErrorTermIsBounded : Obligations.TheErrorTermIsBounded := by
  unfold Obligations.TheErrorTermIsBounded
  intro x0 y0 x1 y1 k hk
  have hbound := natAbs_lineStep_iterate_err hk
  exact ⟨hbound, fun hrange => by omega⟩

/-- Settles O36: the two walks, evaluated. -/
theorem endpointOrderMatters : Obligations.EndpointOrderMatters := by
  unfold Obligations.EndpointOrderMatters
  decide

/-! ### LINE (R121, R124, R125) -/

theorem exec_line (x0 y0 x1 y1 : Word) (s : State) :
    exec (.line x0 y0 x1 y1) s = .next (draw (linePoints (sext16 x0) (sext16 y0) (sext16 x1) (sext16 y1)) s) := rfl

/-- Settles O57: the model's registers and iteration are those of the rule, and the position is the last endpoint exactly after the
last iteration. -/
theorem theWalkIsTheLoopOfTheRule : Obligations.TheWalkIsTheLoopOfTheRule := by
  unfold Obligations.TheWalkIsTheLoopOfTheRule
  refine ⟨fun x0 y0 x1 y1 => ?_, fun s x0 y0 x1 y1 => ⟨_, exec_line x0 y0 x1 y1 s, rfl⟩⟩
  rw [← lineStart_eq, ← funext lineStep_eq]
  refine ⟨getElem?_linePoints_eq_some.mpr ⟨Nat.zero_le _, rfl⟩, fun k p hp => ?_⟩
  obtain ⟨hk, rfl⟩ := getElem?_linePoints_eq_some.mp hp
  refine ⟨rfl, fun hend => ?_, fun hgo => ?_⟩
  · rw [length_linePoints, (linePosition_eq_end_iff hk).mp hend]
  · have hlt := lt_of_le_of_ne hk (mt (linePosition_eq_end_iff hk).mpr hgo)
    exact ⟨_, getElem?_linePoints_eq_some.mpr ⟨hlt, rfl⟩⟩

/-- Settles O27: LINE draws the walk's points. -/
theorem lineSetsItsWalk : Obligations.LineSetsItsWalk := by
  unfold Obligations.LineSetsItsWalk
  intro s x0 y0 x1 y1 hm
  exact ⟨_, exec_line x0 y0 x1 y1 s, setPixels_setsExactly s.fb hm _ _ fun _ _ _ => Iff.rfl, rfl, draw_endedQuietly _ s⟩

/-! ### Axis-aligned lines (R122 item 7) -/

theorem Between.comm {a b v : Int} : Between a b v ↔ Between b a v := by
  rw [Between, Between, min_comm, max_comm]

theorem Between.left {a b : Int} : Between a b a := ⟨min_le_left a b, le_max_left a b⟩

theorem Between.right {a b : Int} : Between a b b := ⟨min_le_right a b, le_max_right a b⟩

/-- Steps of unit length from `a` to `b` reach exactly the numbers between them. -/
theorem exists_steps_iff_between {a b v : Int} :
    (∃ k : Nat, k ≤ (b - a).natAbs ∧ a + (b - a).sign * k = v) ↔ Between a b v := by
  unfold Between
  constructor
  · rintro ⟨k, hk, rfl⟩
    obtain h | h | h := lt_trichotomy (b - a) 0
    · rw [Int.sign_eq_neg_one_of_neg h]; omega
    · rw [h, Int.sign_zero]; omega
    · rw [Int.sign_eq_one_of_pos h]; omega
  · intro hv
    refine ⟨(v - a).natAbs, by omega, ?_⟩
    obtain h | h | h := lt_trichotomy (b - a) 0
    · rw [Int.sign_eq_neg_one_of_neg h]; omega
    · rw [h, Int.sign_zero]; omega
    · rw [Int.sign_eq_one_of_pos h]; omega

theorem mem_linePoints_horizontal {x0 x1 y px py : Int} :
    (px, py) ∈ linePoints x0 y x1 y ↔ Between x0 x1 px ∧ py = y := by
  have hw : (y - y).natAbs ≤ (x1 - x0).natAbs := by omega
  have hposition {k : Nat} (hk : k ≤ (x1 - x0).natAbs) : linePosition x0 y x1 y k = (x0 + (x1 - x0).sign * k, y) :=
    Prod.ext (lineStep_iterate_x_of_wide hw hk) (lineStep_iterate_y_of_horizontal k)
  rw [mem_linePoints, max_eq_left hw, ← exists_steps_iff_between]
  constructor
  · rintro ⟨k, hk, hp⟩
    obtain ⟨hx, hy⟩ := Prod.mk.inj ((hposition hk).symm.trans hp)
    exact ⟨⟨k, hk, hx⟩, hy.symm⟩
  · rintro ⟨⟨k, hk, rfl⟩, rfl⟩
    exact ⟨k, hk, hposition hk⟩

theorem mem_linePoints_vertical {x y0 y1 px py : Int} :
    (px, py) ∈ linePoints x y0 x y1 ↔ px = x ∧ Between y0 y1 py := by
  rw [← swap_mem_linePoints, Prod.swap_prod_mk, mem_linePoints_horizontal, and_comm]

/-- Settles O35: the horizontal line point by point, and the vertical one as its mirror image. -/
theorem axisAlignedWalks : Obligations.AxisAlignedWalks := by
  unfold Obligations.AxisAlignedWalks
  exact ⟨fun _ _ _ _ _ => mem_linePoints_horizontal, fun _ _ _ _ _ => mem_linePoints_vertical⟩

/-! ### RECT (R126, R127) -/

theorem exec_rect (x y w h : Word) (s : State) :
    exec (.rect x y w h) s = .next (draw (rectPoints (sext16 x) (sext16 y) (sext16 w) (sext16 h)) s) := rfl

/-- R126's closed form: the four segments are axis-aligned, and two of them run backwards. -/
theorem mem_rectPoints {x y w h px py : Int} : (px, py) ∈ rectPoints x y w h ↔ OutlinePixels x y w h px py := by
  simp only [rectPoints, List.mem_append, mem_linePoints_horizontal, mem_linePoints_vertical, OutlinePixels,
    Between.comm (a := x + w), Between.comm (a := y + h)]
  tauto

/-- Settles O28: RECT draws the outline's points. -/
theorem rectSetsItsOutline : Obligations.RectSetsItsOutline := by
  unfold Obligations.RectSetsItsOutline
  intro s x y w h hm
  exact ⟨_, exec_rect x y w h s, setPixels_setsExactly s.fb hm _ _ fun _ _ _ => mem_rectPoints, rfl, draw_endedQuietly _ s⟩

/-! ### FILL (R128, R129) -/

theorem exec_fill (x y w h : Word) (s : State) :
    exec (.fill x y w h) s = .next (draw (fillPoints (sext16 x) (sext16 y) (sext16 w) (sext16 h)) s) := rfl

/-- Settles O29: FILL draws the in-bounds points of the spans, which cover the box. -/
theorem fillSetsItsBox : Obligations.FillSetsItsBox := by
  unfold Obligations.FillSetsItsBox
  intro s x y w h hm
  refine ⟨_, exec_fill x y w h s, setPixels_setsExactly s.fb hm _ _ fun px py hin => ?_, rfl, draw_endedQuietly _ s⟩
  rw [mem_fillPoints, mem_fillSpans, BoxPixels]
  exact and_iff_left hin

/-- Settles O31: the closed forms of the outline and of the spans, at sizes that are not negative. -/
theorem rectAndFillDifferByOne : Obligations.RectAndFillDifferByOne := by
  unfold Obligations.RectAndFillDifferByOne
  intro x y w h hw hh
  refine ⟨fun px py hp => ?_, mem_rectPoints.mpr (.inl ⟨.left, .inl rfl⟩), mem_rectPoints.mpr (.inl ⟨.right, .inr rfl⟩),
    fun px py => (mem_fillSpans ..).mp,
    fun hw hh => ⟨(mem_fillSpans ..).mpr (by omega), (mem_fillSpans ..).mpr (by omega)⟩⟩
  have hp := mem_rectPoints.mp hp
  simp only [OutlinePixels, Between] at hp
  omega

/-! ### The byte-wise form of the fill (R128) -/

/-- A bit of an OR of bytes is set if it is set in one of them. -/
theorem getLsbD_foldl_or (f : Int → Byte) (l : List Int) (acc : Byte) (b : Nat) :
    (l.foldl (fun acc j => acc ||| f j) acc).getLsbD b = true ↔ acc.getLsbD b = true ∨ ∃ j ∈ l, (f j).getLsbD b = true := by
  induction l generalizing acc with
  | nil => simp
  | cons j l ih => simp [ih, or_assoc]

/-- Bit `b` of the mask of page `p` is set if row `8*p + b` is one of the fill's. -/
theorem getLsbD_pageMask (y h : Int) (p : Nat) {b : Nat} (hb : b < 8) :
    (pageMask y h p).getLsbD b = true ↔ y ≤ 8 * (p : Int) + b ∧ 8 * (p : Int) + b < y + h := by
  have hbit (n : Nat) : (1#8 <<< n).getLsbD b = true ↔ n = b := by
    rw [← BitVec.twoPow_eq, BitVec.getLsbD_twoPow, Bool.and_eq_true, decide_eq_true_eq, decide_eq_true_eq]
    omega
  simp only [pageMask, getLsbD_foldl_or, BitVec.getLsbD_zero, Bool.false_eq_true, false_or, hbit, mem_intRange]
  constructor
  · rintro ⟨j, hj, hjb⟩; omega
  · intro hrow; exact ⟨8 * p + b, by omega, by omega⟩

/-- Column `i` of page `p` at row `8*p + b`: bit `b` of the byte at `72*p + i`, where the spans are set. -/
theorem getLsbD_read_setPixels {m : Memory} (ps : List (Int × Int)) {p i b : Nat} (hp : p < 5)
    (hi : i < 72) (hb : b < 8) {v v' : Byte} (hv : m.read (p * 72 + i) = some v)
    (hv' : (setPixels m ps).read (p * 72 + i) = some v') :
    v'.getLsbD b = true ↔ v.getLsbD b = true ∨ ((i : Int), 8 * (p : Int) + b) ∈ ps := by
  have ha : p * 72 + i < 360 := by omega
  have hcol : (p * 72 + i) % 72 = i := by omega
  have hrow : (p * 72 + i) / 72 = p := by omega
  rw [← lit_iff_getLsbD _ b ha hb v hv, ← lit_iff_getLsbD _ b ha hb v' hv', hcol, hrow]
  obtain ⟨hin, haddr, -⟩ := pixel_of_addr_bit _ b ha hb
  rw [hcol, hrow] at hin haddr
  exact setPixels_lit m ps _ _ hin (by rw [haddr, hv]; rfl)

/-- Settles O30: bit by bit, the byte holds the spans' points of its column and its page's rows, which are the mask's. -/
theorem fillEqualsTheByteWiseForm : Obligations.FillEqualsTheByteWiseForm := by
  unfold Obligations.FillEqualsTheByteWiseForm
  refine ⟨mem_fillSpans, fun m x y w h p i hm hp hi => ?_⟩
  have ha : p * 72 + i < 360 := by omega
  obtain ⟨v, hv⟩ := Memory.wf_read hm ha
  obtain ⟨v', hv'⟩ := Memory.wf_read (setPixels_wf (fillSpans x y w h) hm) ha
  rw [hv, hv', Option.map_some, Option.some.injEq]
  refine BitVec.eq_of_getLsbD_eq fun b hb => Bool.eq_iff_iff.mpr ?_
  rw [getLsbD_read_setPixels _ hp hi hb hv hv', mem_fillSpans]
  split
  · next hcovered =>
    rw [BitVec.getLsbD_or, Bool.or_eq_true, getLsbD_pageMask y h p hb]
    exact or_congr_right (and_iff_right (by omega))
  · next huncovered => exact or_iff_left (by omega)

end Sys2Proof.Machine

/-! ## The text family: the glyphs of a text, and centring -/

namespace Sys2Proof.Machine

/-! ### TEXT (42_text.md R151–R155) -/

/-- Drawing a text's points on a canonical framebuffer sets exactly the pixels of its glyphs. -/
theorem setsExactly_draw_textPoints {s : State} (hm : Memory.wf 360 s.fb = true) (rom : Memory) (x y : Int) (t : List Byte) :
    SetsExactly (TextPixels rom x y t) s.fb (draw (textPoints rom x y t) s).fb :=
  setPixels_setsExactly s.fb hm _ _ fun px py _ => mem_textPoints rom x y t px py

theorem exec_text (x y : Word) (t : List Byte) (s : State) :
    exec (.text x y t) s = .next (draw (textPoints s.glyphRom (sext16 x) (sext16 y) t) s) := rfl

/-- Settles O37: TEXT draws its text's points. -/
theorem textDrawsItsGlyphs : Obligations.TextDrawsItsGlyphs := by
  unfold Obligations.TextDrawsItsGlyphs
  intro s x y t hm
  exact ⟨_, exec_text x y t s, setsExactly_draw_textPoints hm .., rfl, draw_endedQuietly _ s⟩

/-! ### TEXTC (R156, R157) -/

/-- R156's closed form: `72 - 6L` is even, so the division is exact, and what it gives is negative from 13 characters on. -/
theorem centreX_eq (len : Nat) : centreX len = if len ≤ 12 then 36 - 3 * (len : Int) else 0 := by
  have heven : (Config.width : Int) - (len : Int) * Config.cellW = 2 * (36 - 3 * (len : Int)) := by
    simp only [Config.width, Config.cellW]
    omega
  rw [centreX, heven, Int.mul_tdiv_cancel_left _ two_ne_zero]
  split_ifs <;> omega

theorem centreY_eq (line : Int) : centreY line = line * 10 := rfl

theorem exec_textc (line : Word) (t : List Byte) (s : State) :
    exec (.textc line t) s = .next (draw (textPoints s.glyphRom (centreX t.length) (centreY (sext16 line)) t) s) := rfl

/-- Settles O38: TEXTC draws its text's points at the centred position, which the closed form of R156 gives. -/
theorem textcDrawsCentred : Obligations.TextcDrawsCentred := by
  unfold Obligations.TextcDrawsCentred
  intro s line t hm
  rw [← centreX_eq, ← centreY_eq]
  exact ⟨_, exec_textc line t s, setsExactly_draw_textPoints hm .., rfl, draw_endedQuietly _ s⟩

end Sys2Proof.Machine

/-! ## The display controller family: transactions, sequences, and INIT, UPDATE and POWER -/

namespace Sys2Proof.Machine

/-! ### One transaction (43_display_controller.md R180, R181) -/

theorem eventEnd_answer_intime {e : XpEvent} {c : Nat} {err : Bool} (he : e.kind = .answer c err) (hc : c ≤ Config.tXfer) :
    eventEnd e = .answered (if err then .error else .ok) := by
  simp [eventEnd, he, hc]

theorem eventEnd_answer_late {e : XpEvent} {c : Nat} {err : Bool} (he : e.kind = .answer c err) (hc : Config.tXfer < c) :
    eventEnd e = .answered .timeout := by
  simp [eventEnd, he, Nat.not_le.mpr hc]

theorem eventEnd_silent {e : XpEvent} (he : e.kind = .silent) : eventEnd e = .answered .timeout := by
  simp [eventEnd, he]

theorem eventEnd_reset {e : XpEvent} (he : e.kind = .reset) : eventEnd e = .abandoned := by
  simp [eventEnd, he]

theorem transact_of_cons (f : Frame) {s : State} {e : XpEvent} {rest : List XpEvent} (ht : s.transport = e :: rest) :
    transact f s = (eventEnd e, { s with transport := rest, inFlight := none, bus := s.bus ++ [txnRecord f e] }) := by
  rw [transact_eq, nextEvent_cons ht, ht, List.tail_cons]

/-- Settles O39: the event that ends the transaction decides its end, and the record is the one of that event. -/
theorem aTransactionEndsByAnswerOrTimeout : Obligations.ATransactionEndsByAnswerOrTimeout := by
  unfold Obligations.ATransactionEndsByAnswerOrTimeout
  intro f s e rest ht
  rw [transact_of_cons f ht]
  exact ⟨fun _ _ => eventEnd_answer_intime, fun _ _ => eventEnd_answer_late, eventEnd_silent, eventEnd_reset,
    txnRecord f e, rfl, rfl, rfl, min_le_right _ _, rfl, decide_eq_true_iff⟩

theorem length_beats (f : Frame) : f.beats.length = f.payload.length + 1 := by
  simp [Frame.beats, Frame.bytes]

theorem getElem?_beats_eq_some {f : Frame} {k : Nat} {b : Beat} :
    f.beats[k]? = some b ↔
      ∃ v, (f.ctrl :: f.payload)[k]? = some v ∧ ⟨v, decide (k = 0), decide (k + 1 = f.payload.length + 1)⟩ = b := by
  rw [Frame.beats, List.getElem?_map, List.getElem?_zipIdx, Nat.zero_add, Option.map_map]
  exact Option.map_eq_some_iff

/-- Settles O40: byte `k` on the port, with its flags, is byte `k` of the transaction. -/
theorem bytesOnThePortAreFlagged : Obligations.BytesOnThePortAreFlagged := by
  unfold Obligations.BytesOnThePortAreFlagged
  refine fun f => ⟨length_beats f, fun k b hb => ?_⟩
  obtain ⟨v, hv, rfl⟩ := getElem?_beats_eq_some.mp hb
  exact ⟨hv, decide_eq_true_iff, decide_eq_true_iff.trans Nat.add_right_cancel_iff⟩

/-! ### A sequence of transactions (R186) -/

/-- Transactions that are answered OK are all sent, and what follows them goes on from there. -/
theorem runSeq_append_of_allOk {fs : List Frame} (gs : List Frame) {es rest : List XpEvent} {s : State}
    (hflight : s.inFlight = none) (ht : s.transport = es ++ rest) (hlen : es.length = fs.length) (hok : AllOk es) :
    runSeq (fs ++ gs) s = runSeq gs { s with transport := rest, bus := s.bus ++ List.zipWith txnRecord fs es } := by
  induction fs generalizing es s with
  | nil =>
    obtain rfl := List.length_eq_zero_iff.mp hlen
    rw [List.nil_append] at ht
    rw [List.nil_append, List.zipWith_nil_left, List.append_nil, ← ht]
  | cons f fs ih =>
    obtain ⟨e, es, rfl⟩ := List.exists_cons_of_length_eq_add_one hlen
    obtain ⟨he, hok⟩ := List.forall_mem_cons.mp hok
    rw [List.cons_append, runSeq_cons, nextEvent_cons ht, if_pos he, transact_of_cons f ht,
      ih rfl rfl (Nat.succ.inj hlen) hok, List.append_assoc, hflight]
    rfl

theorem runSeq_of_allOk {fs : List Frame} {es rest : List XpEvent} {s : State} (hflight : s.inFlight = none)
    (ht : s.transport = es ++ rest) (hlen : es.length = fs.length) (hok : AllOk es) :
    runSeq fs s = (.answered .ok, { s with transport := rest, bus := s.bus ++ List.zipWith txnRecord fs es }) := by
  have h := runSeq_append_of_allOk [] hflight ht hlen hok
  rwa [List.append_nil] at h

theorem runSeq_of_failure {fs : List Frame} {es rest : List XpEvent} {e : XpEvent} {s : State} (hflight : s.inFlight = none)
    (ht : s.transport = es ++ e :: rest) (hlen : es.length < fs.length) (hok : AllOk es) (he : eventEnd e ≠ .answered .ok) :
    runSeq fs s = (eventEnd e, { s with transport := rest, bus := s.bus ++ List.zipWith txnRecord fs (es ++ [e]) }) := by
  obtain ⟨sent, f, unsent, rfl, hsent⟩ : ∃ sent f unsent, fs = sent ++ f :: unsent ∧ es.length = sent.length :=
    ⟨fs.take es.length, fs[es.length], fs.drop (es.length + 1), by simp, (List.length_take_of_le hlen.le).symm⟩
  rw [runSeq_append_of_allOk (f :: unsent) hflight ht hsent hok, runSeq_cons, transact_of_cons f rfl, nextEvent_cons rfl, if_neg he,
    List.zipWith_append hsent.symm, List.zipWith_cons_cons, List.zipWith_nil_right, ← List.append_assoc, hflight]

/-- Settles O41: the transactions answered OK are sent, and the first that is not ends the sequence. -/
theorem aSequenceStopsAtItsFirstFailure : Obligations.ASequenceStopsAtItsFirstFailure := by
  unfold Obligations.ASequenceStopsAtItsFirstFailure
  exact ⟨fun _ _ _ _ => runSeq_of_allOk, fun _ _ _ _ _ => runSeq_of_failure⟩

theorem nextEvent_congr {s s' : State} (ht : s'.transport = s.transport) (hb : s'.bus = s.bus) : nextEvent s' = nextEvent s := by
  simp only [nextEvent, ht, hb]

/-- How a sequence ends, and what it leaves on the transport port, depends on that port alone; its end is the last record's. -/
theorem runSeq_of_same_port {fs : List Frame} (hn : fs ≠ []) {s s' : State} (ht : s'.transport = s.transport) (hb : s'.bus = s.bus) :
    ∃ tr b r, runSeq fs s = (r.fin, { s with inFlight := none, transport := tr, bus := b ++ [r] })
      ∧ runSeq fs s' = (r.fin, { s' with inFlight := none, transport := tr, bus := b ++ [r] }) := by
  induction fs generalizing s s' with
  | nil => exact absurd rfl hn
  | cons f fs ih =>
    rw [runSeq_cons, runSeq_cons, transact_eq, transact_eq, nextEvent_congr ht hb, ht, hb]
    by_cases he : eventEnd (nextEvent s) = .answered .ok
    · rw [if_pos he, if_pos he]
      cases fs with
      | nil => exact ⟨_, s.bus, txnRecord f (nextEvent s), by rw [runSeq, ← he]; rfl, by rw [runSeq, ← he]; rfl⟩
      | cons g gs => exact ih (List.cons_ne_nil g gs) rfl rfl
    · rw [if_neg he, if_neg he]
      exact ⟨_, s.bus, txnRecord f (nextEvent s), rfl, rfl⟩

/-- Settles O42: the sequences, written out; START_LINE is sent for line 0. -/
theorem initAndWindowSequences : Obligations.InitAndWindowSequences := by
  unfold Obligations.InitAndWindowSequences
  refine fun p q => ⟨?_, rfl⟩
  rw [initSeq, BitVec.or_zero]
  rfl

/-! ### A command's sequence and its result (R186, 70_reset_and_hazards.md R251) -/

section
variable {fs : List Frame} {result : Answer → State → State} {s : State}

theorem runBus_of_answered {a : Answer} {u : State} (h : runSeq fs s = (.answered a, u)) : runBus fs result s = result a u := by
  simp only [runBus, h]

theorem runBus_of_abandoned {u : State} (h : runSeq fs s = (.abandoned, u)) : runBus fs result s = takeReset u := by
  simp only [runBus, h]

theorem runBus_of_allOk (hn : fs ≠ []) {es rest : List XpEvent} (ht : s.transport = es ++ rest) (hlen : es.length = fs.length)
    (hok : AllOk es) :
    runBus fs result s
      = result .ok { s with inFlight := none, transport := rest, bus := s.bus ++ List.zipWith txnRecord fs es } :=
  runBus_of_answered ((runSeq_inFlight hn s none).symm.trans (runSeq_of_allOk rfl ht hlen hok))

theorem runBus_of_failure (hn : fs ≠ []) {es rest : List XpEvent} {e : XpEvent} {a : Answer} (ht : s.transport = es ++ e :: rest)
    (hlen : es.length < fs.length) (hok : AllOk es) (he : eventEnd e = .answered a) (ha : a ≠ .ok) :
    runBus fs result s
      = result a { s with inFlight := none, transport := rest, bus := s.bus ++ List.zipWith txnRecord fs (es ++ [e]) } := by
  have hfail : eventEnd e ≠ .answered .ok := fun h => ha (TxnEnd.answered.inj (he.symm.trans h))
  exact runBus_of_answered ((runSeq_inFlight hn s none).symm.trans (he ▸ runSeq_of_failure rfl ht hlen hok hfail))

/-- A sequence of one transaction ends in its result for each answer. -/
theorem runBus_singleton {f : Frame} {e : XpEvent} {rest : List XpEvent} {a : Answer} (ht : s.transport = e :: rest)
    (he : eventEnd e = .answered a) :
    runBus [f] result s
      = result a { s with inFlight := none, transport := rest, bus := s.bus ++ [txnRecord f e] } := by
  by_cases ha : a = .ok
  · subst ha
    exact runBus_of_allOk (es := [e]) (List.cons_ne_nil f []) ht rfl (List.forall_mem_singleton.mpr he)
  · exact runBus_of_failure (es := []) (List.cons_ne_nil f []) ht Nat.one_pos nofun he ha

/-- `runSeq_of_same_port` for a command's sequence with its result. -/
theorem runBus_of_same_port (hn : fs ≠ []) (result : Answer → State → State) {s' : State} (ht : s'.transport = s.transport)
    (hb : s'.bus = s.bus) :
    ∃ tr b r, (∃ a, r.fin = .answered a
          ∧ runBus fs result s = result a { s with inFlight := none, transport := tr, bus := b ++ [r] }
          ∧ runBus fs result s' = result a { s' with inFlight := none, transport := tr, bus := b ++ [r] })
      ∨ (runBus fs result s = takeReset { s with inFlight := none, transport := tr, bus := b ++ [r] }
          ∧ runBus fs result s' = takeReset { s' with inFlight := none, transport := tr, bus := b ++ [r] }) := by
  obtain ⟨tr, b, r, hs, hs'⟩ := runSeq_of_same_port hn ht hb
  refine ⟨tr, b, r, ?_⟩
  cases hr : r.fin with
  | answered a =>
    rw [hr] at hs hs'
    exact .inl ⟨a, rfl, runBus_of_answered hs, runBus_of_answered hs'⟩
  | abandoned =>
    rw [hr] at hs hs'
    exact .inr ⟨runBus_of_abandoned hs, runBus_of_abandoned hs'⟩

/-- With no reset the result is written for the answer of the last transaction sent. -/
theorem runBus_of_no_reset (hn : fs ≠ []) (hresets : (runBus fs result s).resets = s.resets) :
    ∃ a tr b r, r.fin = .answered a
      ∧ runBus fs result s = result a { s with inFlight := none, transport := tr, bus := b ++ [r] } := by
  obtain ⟨tr, b, r, ⟨a, hr, hs, -⟩ | ⟨hs, -⟩⟩ := runBus_of_same_port hn result (rfl : s.transport = s.transport) rfl
  · exact ⟨a, tr, b, r, hr, hs⟩
  · rw [hs] at hresets
    exact absurd hresets (Nat.succ_ne_self _)

end

/-- The results of INIT, UPDATE and POWER write PSTATE, INIT_FAILED and XSTAT, and what a sequence leaves on the transport port. -/
theorem busEnded_endBus (a : Answer) (p : PState) (failed : Bool) (tr : List XpEvent) (b : List Txn) (s : State) :
    BusEnded s (endBus a { s with pstate := p, initFailed := failed, inFlight := none, transport := tr, bus := b }) :=
  ⟨rfl, rfl, rfl, ⟨rfl, rfl, rfl⟩, ⟨rfl, rfl, rfl, rfl, rfl⟩, rfl, rfl, rfl, rfl, rfl⟩

/-! ### What INIT, UPDATE and POWER do, by the state check (60_exceptions.md R222) -/

theorem stateCheck_congr (k : Header) {s t : State} (hp : t.pstate = s.pstate) (hx : t.xpPresent = s.xpPresent) :
    stateCheck k t = stateCheck k s := by
  cases k <;> simp only [stateCheck, hp, hx]

/-- What INIT, UPDATE and POWER have in common: the state check of the header `k`, then the transactions `fs` with their result. -/
def busCommand (k : Header) (fs : List Frame) (result : Answer → State → State) (s : State) : State :=
  match stateCheck k s with
  | some c => raiseFault c s
  | none => runBus fs result s

theorem exec_init (s : State) :
    exec .init s = .next (busCommand .init (initSeq Config.panelOpc Config.panelParams) initResult s) := by
  cases h : stateCheck .init s <;> simp only [exec, execInit, busCommand, h]

theorem exec_power (on : Bool) (s : State) :
    exec (.power on) s = .next (busCommand (.power on) (powerSeq Config.panelOpc on) (powerResult on) s) := by
  cases h : stateCheck (.power on) s <;> simp only [exec, execPower, busCommand, h]

theorem initSeq_ne_nil (p : PanelOpc) (q : PanelParams) : initSeq p q ≠ [] := List.cons_ne_nil _ _

theorem updateSeq_ne_nil (p : PanelOpc) (bytes : List Byte) : updateSeq p bytes ≠ [] := List.cons_ne_nil _ _

theorem powerSeq_ne_nil (p : PanelOpc) (on : Bool) : powerSeq p on ≠ [] := List.cons_ne_nil _ _

section
variable {s t : State}

theorem exec_update {bytes : List Byte} (hbytes : s.fb.readRange 0 Config.fbBytes = .ok bytes) :
    exec .update s = .next (busCommand .update (updateSeq Config.panelOpc bytes) endBus s) := by
  cases h : stateCheck .update s <;> simp only [exec, execUpdate, busCommand, hbytes, h]

theorem stateCheck_init_of_uninit (hp : s.pstate = .uninit) (hx : s.xpPresent = true) : stateCheck .init s = none := by
  simp [stateCheck, hp, hx]

theorem stateCheck_init_of_ne_uninit (hp : s.pstate ≠ .uninit) : stateCheck .init s = some .doubleInit := by
  simp [stateCheck, hp]

theorem stateCheck_update_of_ne_uninit (hp : s.pstate ≠ .uninit) (hx : s.xpPresent = true) : stateCheck .update s = none := by
  simp [stateCheck, hp, hx]

theorem stateCheck_update_of_uninit (hp : s.pstate = .uninit) : stateCheck .update s = some .notInitialized := by
  simp [stateCheck, hp]

theorem stateCheck_power_of_ne_uninit (on : Bool) (hp : s.pstate ≠ .uninit) (hx : s.xpPresent = true) :
    stateCheck (.power on) s = none := by
  simp [stateCheck, hp, hx]

theorem stateCheck_power_of_uninit (on : Bool) (hp : s.pstate = .uninit) : stateCheck (.power on) s = some .notInitialized := by
  simp [stateCheck, hp]

variable {k : Header} {fs : List Frame} {result : Answer → State → State}

theorem busCommand_of_some {c : Cause} (h : stateCheck k s = some c) : busCommand k fs result s = raiseFault c s := by
  simp only [busCommand, h]

theorem busCommand_of_none (h : stateCheck k s = none) : busCommand k fs result s = runBus fs result s := by
  simp only [busCommand, h]

/-- Without a fault and a reset the command ends in its result for the answer of the last transaction sent. -/
theorem busCommand_ends (hn : fs ≠ []) (hcheck : stateCheck k s = none)
    (h : (.next (busCommand k fs result s) : Host.Outcome State Fault Refusal) = .next t) (hresets : t.resets = s.resets) :
    ∃ a tr b r, r.fin = .answered a ∧ t = result a { s with inFlight := none, transport := tr, bus := b ++ [r] } := by
  rw [busCommand_of_none hcheck] at h
  obtain rfl := Host.Outcome.next.inj h
  exact runBus_of_no_reset hn hresets

end

/-- A canonical framebuffer's bytes in the order of their addresses. -/
theorem exists_readRange_framebuffer {m : Memory} (hm : Memory.wf 360 m = true) :
    ∃ bytes, m.readRange 0 Config.fbBytes = .ok bytes ∧ bytes.length = 360 ∧ ∀ k, k < 360 → bytes[k]? = m.read k := by
  obtain ⟨bytes, hbytes⟩ := Memory.wf_readRange hm
  obtain ⟨hlen, hread⟩ := Memory.readRange_eq_ok hbytes
  refine ⟨bytes, hbytes, hlen, fun k hk => ?_⟩
  rw [← hread k hk, Nat.zero_add]

/-! ### INIT (43_display_controller.md R190) -/

/-- Settles O43: the sixteen transactions are sent, and INIT's result is written for the answer OK. -/
theorem initSucceeds : Obligations.InitSucceeds := by
  unfold Obligations.InitSucceeds
  intro s es rest hp hx ht hlen hok
  refine ⟨_, exec_init s, ?_⟩
  rw [busCommand_of_none (stateCheck_init_of_uninit hp hx), runBus_of_allOk (initSeq_ne_nil _ _) ht hlen hok]
  exact ⟨rfl, rfl, rfl, rfl, rfl, busEnded_endBus ..⟩

/-- Settles O44: the sequence stops at the failure, and INIT's result is written for its answer. -/
theorem aFailedInitLeavesUninit : Obligations.AFailedInitLeavesUninit := by
  unfold Obligations.AFailedInitLeavesUninit
  intro s es rest e a hp hx ht hlen hok he ha
  refine ⟨_, exec_init s, ?_⟩
  rw [busCommand_of_none (stateCheck_init_of_uninit hp hx), runBus_of_failure (initSeq_ne_nil _ _) ht hlen hok he ha]
  exact ⟨(if_neg ha).trans hp, decide_eq_true ha, rfl, rfl, rfl, busEnded_endBus ..⟩

/-! ### UPDATE (R193) -/

/-- Settles O45: the framebuffer can be read, the three transactions are sent, and XSTAT takes the answer OK. -/
theorem updateSendsTheFramebuffer : Obligations.UpdateSendsTheFramebuffer := by
  unfold Obligations.UpdateSendsTheFramebuffer
  intro s e1 e2 e3 rest hm hp hx ht hok
  obtain ⟨bytes, hbytes, hlen, hread⟩ := exists_readRange_framebuffer hm
  refine ⟨_, bytes, exec_update hbytes, hlen, hread, ?_⟩
  rw [busCommand_of_none (stateCheck_update_of_ne_uninit hp hx),
    runBus_of_allOk (es := [e1, e2, e3]) (updateSeq_ne_nil _ _) ht rfl hok]
  exact ⟨rfl, rfl, rfl, rfl, rfl, busEnded_endBus ..⟩

/-- Settles O46: the sequence stops at the failure, and XSTAT takes its answer. -/
theorem aFailedUpdateStops : Obligations.AFailedUpdateStops := by
  unfold Obligations.AFailedUpdateStops
  intro s es rest e a hm hp hx ht hlen hok he ha
  obtain ⟨bytes, hbytes, hbytesLen, hread⟩ := exists_readRange_framebuffer hm
  refine ⟨_, bytes, exec_update hbytes, hbytesLen, hread, ?_⟩
  rw [busCommand_of_none (stateCheck_update_of_ne_uninit hp hx),
    runBus_of_failure (updateSeq_ne_nil _ _) ht hlen hok he ha]
  exact ⟨rfl, rfl, rfl, rfl, rfl, busEnded_endBus ..⟩

/-! ### POWER (R196) -/

/-- Settles O47: the one transaction is sent, and POWER's result is written for its answer. -/
theorem powerSwitchesTheDisplay : Obligations.PowerSwitchesTheDisplay := by
  unfold Obligations.PowerSwitchesTheDisplay
  intro s on e rest a hp hx ht he
  refine ⟨_, exec_power on s, ?_⟩
  rw [busCommand_of_none (stateCheck_power_of_ne_uninit on hp hx), powerSeq, runBus_singleton ht he]
  exact ⟨rfl, rfl, fun ha => if_pos ha, fun ha => if_neg ha, rfl, rfl, busEnded_endBus ..⟩

/-! ### What the three commands read (R193, R199) -/

/-- A command whose result neither reads nor writes the framebuffer does the same with another one, unless a reset comes. -/
theorem busCommand_of_other_framebuffer (k : Header) {fs : List Frame} (hn : fs ≠ []) {result : Answer → State → State} {m : Memory}
    (hresult : ∀ a u, { result a { u with fb := m } with fb := (result a u).fb } = result a u) (hkeeps : ∀ a u, (result a u).fb = u.fb)
    (s : State) :
    { busCommand k fs result { s with fb := m } with fb := (busCommand k fs result s).fb } = busCommand k fs result s
      ∧ ((busCommand k fs result s).resets = s.resets →
        (busCommand k fs result { s with fb := m }).fb = m ∧ (busCommand k fs result s).fb = s.fb) := by
  have hcheck : stateCheck k { s with fb := m } = stateCheck k s := stateCheck_congr k rfl rfl
  cases h : stateCheck k s with
  | some c =>
    rw [busCommand_of_some h, busCommand_of_some (hcheck.trans h)]
    exact ⟨rfl, fun _ => ⟨rfl, rfl⟩⟩
  | none =>
    rw [busCommand_of_none h, busCommand_of_none (hcheck.trans h)]
    obtain ⟨tr, b, r, ⟨a, -, hs, hs'⟩ | ⟨hs, hs'⟩⟩ :=
      runBus_of_same_port hn result (s := s) (s' := { s with fb := m }) rfl rfl <;> rw [hs, hs']
    · exact ⟨hresult a _, fun _ => ⟨hkeeps a _, hkeeps a _⟩⟩
    · exact ⟨rfl, fun hresets => absurd hresets (Nat.succ_ne_self _)⟩

/-- Settles O55: neither the state check, nor the sequence, nor the result of INIT and POWER reads the framebuffer. -/
theorem initAndPowerNeverReadTheFramebuffer : Obligations.InitAndPowerNeverReadTheFramebuffer := by
  unfold Obligations.InitAndPowerNeverReadTheFramebuffer
  rintro i s t m (rfl | ⟨on, rfl⟩) h
  · obtain rfl := Host.Outcome.next.inj ((exec_init s).symm.trans h)
    exact ⟨_, exec_init _, busCommand_of_other_framebuffer (result := initResult) _ (initSeq_ne_nil _ _) (fun _ _ => rfl)
      (fun _ _ => rfl) s⟩
  · obtain rfl := Host.Outcome.next.inj ((exec_power on s).symm.trans h)
    exact ⟨_, exec_power on _, busCommand_of_other_framebuffer (result := powerResult on) _ (powerSeq_ne_nil _ _) (fun _ _ => rfl)
      (fun _ _ => rfl) s⟩

/-- Past its state check UPDATE stops only where the framebuffer cannot be read. -/
theorem exists_readRange_of_exec_update {s t : State} (hcheck : stateCheck .update s = none) (h : exec .update s = .next t) :
    ∃ bytes, s.fb.readRange 0 Config.fbBytes = .ok bytes := by
  cases hr : s.fb.readRange 0 Config.fbBytes with
  | ok bytes => exact ⟨bytes, rfl⟩
  | error a => simp [exec, execUpdate, hcheck, hr] at h

/-- Settles O56: the two states read the same bytes, and the sequence they make depends on the transport port alone. -/
theorem updateSendsTheSameForTheSameContent : Obligations.UpdateSendsTheSameForTheSameContent := by
  unfold Obligations.UpdateSendsTheSameForTheSameContent
  intro s s' t t' hfb ht hb hp hp' hx hx' h h'
  have hcheck := stateCheck_update_of_ne_uninit hp hx
  obtain ⟨bytes, hbytes⟩ := exists_readRange_of_exec_update hcheck h
  rw [exec_update hbytes, busCommand_of_none hcheck] at h
  rw [exec_update (hfb ▸ hbytes), busCommand_of_none (stateCheck_update_of_ne_uninit hp' hx')] at h'
  injection h with h
  injection h' with h'
  obtain ⟨tr, b, r, ⟨a, -, hs, hs'⟩ | ⟨hs, hs'⟩⟩ := runBus_of_same_port (updateSeq_ne_nil Config.panelOpc bytes) endBus ht hb
  all_goals
    rw [← h, ← h', hs, hs']
    rfl

/-! ### The power state (10_state.md R23, 43_display_controller.md R197) -/

theorem hostMove_pstate (s : State) :
    (hostMove s).pstate = s.pstate ∨ (hostMove s).pstate = .uninit ∧ (hostMove s).resets = s.resets + 1 := by
  obtain ⟨-, ht⟩ | ⟨rest, -, ht⟩ | ⟨b, rest, -, ht⟩ | ⟨w, rest, -, ht⟩ := hostMove_cases s <;> rw [ht]
  · exact .inl rfl
  · exact .inr ⟨rfl, rfl⟩
  · exact .inl rfl
  · obtain ⟨-, -, hp, -⟩ := acceptWord_frame w { s with host := rest }
    exact .inl hp

/-- Settles O50: of the outside's moves only a reset changes PSTATE; of the commands INIT and POWER do, where the answer is OK, and a
reset in a transaction. -/
theorem powerStateChangesOnlyAsTheTableSays : Obligations.PowerStateChangesOnlyAsTheTableSays := by
  unfold Obligations.PowerStateChangesOnlyAsTheTableSays
  intro s t hstep hne
  obtain ⟨-, rfl⟩ | ⟨-, hexec, i, hfetch, ht⟩ | ⟨-, -, e, -, rfl⟩ := step_next_cases hstep
  · exact .inr (.inr ((hostMove_pstate s).resolve_left hne))
  · obtain ⟨-, m, p, rfl, -⟩ | ⟨-, c, rfl, -⟩ | ⟨-, -, tr, b, rfl⟩ | ⟨rfl, hp, tr, b, a, rfl⟩ | ⟨-, -, tr, b, a, rfl⟩
      | ⟨on, rfl, hp, tr, b, a, rfl⟩ := exec_cases ht
    case inr.inr.inl => exact .inr (.inr ⟨rfl, rfl⟩)
    case inr.inr.inr.inl =>
      obtain rfl : a = .ok := by_contra fun ha => hne (if_neg ha)
      exact .inl ⟨hexec, hfetch, hp, rfl, rfl, rfl⟩
    case inr.inr.inr.inr.inr =>
      obtain rfl : a = .ok := by_contra fun ha => hne (if_neg ha)
      exact .inr (.inl ⟨hexec, ⟨on, hfetch, rfl⟩, hp, rfl⟩)
    all_goals exact absurd rfl hne
  · exact absurd rfl hne

section
variable {s t : State}

theorem exec_init_ends (hp : s.pstate = .uninit) (hx : s.xpPresent = true) (h : exec .init s = .next t)
    (hresets : t.resets = s.resets) :
    ∃ a tr b r, r.fin = .answered a ∧ t = initResult a { s with inFlight := none, transport := tr, bus := b ++ [r] } :=
  busCommand_ends (initSeq_ne_nil _ _) (stateCheck_init_of_uninit hp hx) ((exec_init s).symm.trans h) hresets

theorem exec_update_ends (hp : s.pstate ≠ .uninit) (hx : s.xpPresent = true) (h : exec .update s = .next t)
    (hresets : t.resets = s.resets) :
    ∃ a tr b r, r.fin = .answered a ∧ t = endBus a { s with inFlight := none, transport := tr, bus := b ++ [r] } := by
  have hcheck := stateCheck_update_of_ne_uninit hp hx
  obtain ⟨bytes, hbytes⟩ := exists_readRange_of_exec_update hcheck h
  exact busCommand_ends (updateSeq_ne_nil _ _) hcheck ((exec_update hbytes).symm.trans h) hresets

theorem exec_power_ends {on : Bool} (hp : s.pstate ≠ .uninit) (hx : s.xpPresent = true) (h : exec (.power on) s = .next t)
    (hresets : t.resets = s.resets) :
    ∃ a tr b r, r.fin = .answered a ∧ t = powerResult on a { s with inFlight := none, transport := tr, bus := b ++ [r] } :=
  busCommand_ends (powerSeq_ne_nil _ _) (stateCheck_power_of_ne_uninit on hp hx) ((exec_power on s).symm.trans h) hresets

/-- XSTAT holds the answer of the last transaction sent. -/
theorem exec_xstat {i : Instr} (hi : isBusCommand i = true) (hp : s.pstate = .uninit ↔ i = .init) (hx : s.xpPresent = true)
    (h : exec i s = .next t) (hresets : t.resets = s.resets) :
    ∃ r, t.bus.getLast? = some r ∧ r.fin = .answered t.xstat := by
  cases i with
  | init =>
    obtain ⟨a, tr, b, r, hr, rfl⟩ := exec_init_ends (hp.mpr rfl) hx h hresets
    exact ⟨r, List.getLast?_concat, hr⟩
  | update =>
    obtain ⟨a, tr, b, r, hr, rfl⟩ := exec_update_ends (mt hp.mp nofun) hx h hresets
    exact ⟨r, List.getLast?_concat, hr⟩
  | power on =>
    obtain ⟨a, tr, b, r, hr, rfl⟩ := exec_power_ends (mt hp.mp nofun) hx h hresets
    exact ⟨r, List.getLast?_concat, hr⟩
  | clear | pixel | line | rect | fill | text | textc | getpix => cases hi

/-- INIT in ON or OFF. -/
theorem exec_init_of_ne_uninit (hp : s.pstate ≠ .uninit) : exec .init s = .next (raiseFault .doubleInit s) := by
  rw [exec_init, busCommand_of_some (stateCheck_init_of_ne_uninit hp)]

/-- UPDATE and POWER in UNINIT. -/
theorem exec_of_uninit {i : Instr} (hi : i = .update ∨ ∃ on, i = .power on) (hp : s.pstate = .uninit) :
    exec i s = .next (raiseFault .notInitialized s) := by
  obtain rfl | ⟨on, rfl⟩ := hi
  · simp only [exec, execUpdate, stateCheck_update_of_uninit hp]
  · rw [exec_power, busCommand_of_some (stateCheck_power_of_uninit on hp)]

/-- No command but INIT and POWER changes PSTATE without a reset. -/
theorem exec_pstate {i : Instr} (h : exec i s = .next t) (hresets : t.resets = s.resets) (hinit : i ≠ .init)
    (hpower : ∀ on, i ≠ .power on) : t.pstate = s.pstate := by
  by_contra hne
  obtain ⟨-, hwriters, -⟩ := eachFieldHasItsWriters i s t h hresets
  obtain hi | ⟨on, hi⟩ := hwriters hne
  · exact hinit hi
  · exact hpower on hi

end

/-- Settles O51: each row by the command it is about. -/
theorem powerStateTransitionTable : Obligations.PowerStateTransitionTable := by
  unfold Obligations.PowerStateTransitionTable
  intro i s t h hresets
  refine ⟨?init, ?doubleInit, ?notInitialized, ?update, ?power, fun hi hp hx => exec_xstat hi hp hx h hresets, ?other⟩
  case init =>
    rintro rfl hp hx
    obtain ⟨a, tr, b, r, -, rfl⟩ := exec_init_ends hp hx h hresets
    exact ⟨by rw [initResult_pstate, hp, initResult_xstat], rfl⟩
  case doubleInit =>
    rintro rfl hp
    obtain rfl := Host.Outcome.next.inj ((exec_init_of_ne_uninit hp).symm.trans h)
    exact ⟨rfl, rfl, rfl⟩
  case notInitialized =>
    intro hi hp
    obtain rfl := Host.Outcome.next.inj ((exec_of_uninit hi hp).symm.trans h)
    exact ⟨hp, rfl, rfl⟩
  case update =>
    rintro rfl -
    exact exec_pstate h hresets nofun fun _ => nofun
  case power =>
    rintro on rfl hp hx
    obtain ⟨a, tr, b, r, -, rfl⟩ := exec_power_ends hp hx h hresets
    rfl
  case other =>
    intro hi
    exact exec_pstate h hresets (by rintro rfl; cases hi) (by rintro on rfl; cases hi)

/-! ### The input `xp_present`, and waiting (R180, 70_reset_and_hazards.md R252, R258) -/

/-- Settles O58: while no command executes or FAULT = 1 the step is the outside's move. -/
theorem theAttachInputAndWaiting : Obligations.TheAttachInputAndWaiting := by
  unfold Obligations.TheAttachInputAndWaiting
  intro s hready
  rw [step_host hready]
  exact ⟨fun p rest hh => by rw [hostMove_cons hh, hostEvent], fun hh => by rw [hostMove_nil hh]⟩

end Sys2Proof.Machine

/-! ## The exceptions family: the checks at a header, fault entry, and the fault state -/

namespace Sys2Proof

/-! ### Which headers the checks 1 and 2 reject (30_encoding.md R79) -/

theorem plainHeader_eq_error_iff {aux : Byte} {k : Header} {e : HeaderError} :
    plainHeader aux k = .error e ↔ e = .reservedAux ∧ aux ≠ 0x00#8 := by
  by_cases h : aux = 0x00#8 <;> simp [plainHeader, h, eq_comm]

theorem powerHeader_eq_error_iff {aux : Byte} {e : HeaderError} :
    powerHeader aux = .error e ↔ e = .reservedAux ∧ aux.extractLsb' 1 7 ≠ 0#7 := by
  by_cases h : aux.extractLsb' 1 7 = 0#7 <;> simp [powerHeader, h, eq_comm]

/-- Check 1: OPC is none of the opcode map's eleven. -/
theorem decodeHeader_of_illegalOpcode {w : Word} (h : opcField w ∉
    [0x01#8, 0x02#8, 0x03#8, 0x04#8, 0x05#8, 0x06#8, 0x07#8, 0x08#8, 0x10#8, 0x11#8, 0x12#8]) :
    decodeHeader w = .error .illegalOpcode := by
  simp only [List.mem_cons, List.not_mem_nil, or_false, not_or] at h
  simp only [decodeHeader, h, if_false]

/-- Check 2: AUX is not zero where it is reserved. TEXT and TEXTC reserve none of it, POWER all but its lowest bit. -/
theorem decodeHeader_eq_error_iff_of_legalOpcode {w : Word} {e : HeaderError} (h : opcField w ∈
    [0x01#8, 0x02#8, 0x03#8, 0x04#8, 0x05#8, 0x06#8, 0x07#8, 0x08#8, 0x10#8, 0x11#8, 0x12#8]) :
    decodeHeader w = .error e ↔ e = .reservedAux ∧
      ((opcField w ∈ [0x01#8, 0x02#8, 0x03#8, 0x04#8, 0x05#8, 0x08#8, 0x10#8, 0x11#8] ∧ auxField w ≠ 0x00#8)
        ∨ (opcField w = 0x12#8 ∧ (auxField w).extractLsb' 1 7 ≠ 0#7)) := by
  simp only [List.mem_cons, List.not_mem_nil, or_false] at h
  rcases h with h | h | h | h | h | h | h | h | h | h | h <;>
    simp [decodeHeader, h, plainHeader_eq_error_iff, powerHeader_eq_error_iff]

end Sys2Proof

namespace Sys2Proof.Machine

/-! ### The state checks by the header's opcode (60_exceptions.md R222) -/

theorem headerCheck_of_error {w : Word} {s : State} {e : HeaderError} (h : decodeHeader w = .error e) :
    headerCheck w s = some (headerCause e) := by
  simp only [headerCheck, h]

theorem headerCheck_of_ok {w : Word} {s : State} {k : Header} (h : decodeHeader w = .ok k) : headerCheck w s = stateCheck k s := by
  simp only [headerCheck, h]

/-- A header that the decoder takes meets the state checks in their order. -/
theorem headerCheck_eq_of_decodeHeader {w : Word} {k : Header} (hk : decodeHeader w = .ok k) (s : State) :
    headerCheck w s =
      if opcField w = 0x10#8 ∧ s.pstate ≠ .uninit then some .doubleInit
      else if opcField w ∈ [0x11#8, 0x12#8] ∧ s.pstate = .uninit then some .notInitialized
      else if opcField w ∈ [0x10#8, 0x11#8, 0x12#8] ∧ s.xpPresent = false then some .noTransport
      else none := by
  rw [headerCheck_of_ok hk, eq_headerWordOf hk]
  cases k with
  | init | update | power on => cases hx : s.xpPresent <;> simp [stateCheck, headerWordOf, hx]
  | clear | pixel | line | rect | fill | text len | textc len | getpix => simp [stateCheck, headerWordOf]

/-! ### Fault entry at a header (R225) -/

section
variable {s : State} {w : Word} {rest : List HostEvent}

/-- The step that accepts a failing header is fault entry at it. -/
theorem step_header_of_some {c : Cause} (hf : s.fault = false) (he : s.exec = false) (hp : s.parse = .idle)
    (hh : s.host = .word w :: rest) (hcheck : headerCheck w s = some c) :
    step s = .next (raiseFault c { s with host := rest, hdr := w }) :=
  (step_header hf he hp hh).trans (congrArg _ (acceptHeader_of_some ((headerCheck_congr w rfl rfl).trans hcheck)))

theorem acceptHeader_fault_of_none (hcheck : headerCheck w s = none) : (acceptHeader w s).fault = s.fault := by
  by_cases hl : cmdLen w = 1
  · rw [acceptHeader_of_single hcheck hl]; rfl
  · rw [acceptHeader_of_longer hcheck hl]

theorem acceptOperand_fault (w : Word) (s : State) : (acceptOperand w s).fault = s.fault := by
  by_cases hl : cmdLen s.hdr ≤ s.nrx + 2
  · rw [acceptOperand_of_last hl]; rfl
  · rw [acceptOperand_of_missing (Nat.not_le.mp hl)]; rfl

/-- A word sets FAULT only as a header that fails a check. -/
theorem acceptWord_sets_fault (hf : s.fault = false) (ht : (acceptWord w s).fault = true) :
    s.parse = .idle ∧ ∃ c, headerCheck w s = some c ∧ acceptWord w s = raiseFault c { s with hdr := w } := by
  cases hp : s.parse with
  | collect =>
    rw [acceptWord_of_collect hf hp, acceptOperand_fault, hf] at ht
    cases ht
  | idle =>
    rw [acceptWord_of_idle hf hp] at ht ⊢
    cases hcheck : headerCheck w s with
    | some c => exact ⟨rfl, c, rfl, acceptHeader_of_some hcheck⟩
    | none =>
      rw [acceptHeader_fault_of_none hcheck, hf] at ht
      cases ht

/-- The step that accepts a header raises the fault of its check, or none. -/
theorem step_header_fault (hf : s.fault = false) (he : s.exec = false) (hp : s.parse = .idle) (hh : s.host = .word w :: rest) :
    ∃ t, step s = .next t ∧ t.fault = (headerCheck w s).isSome ∧ ∀ c, headerCheck w s = some c → t.fcause = c ∧ t.fword = w := by
  cases hcheck : headerCheck w s with
  | some c =>
    refine ⟨_, step_header_of_some hf he hp hh hcheck, rfl, ?_⟩
    rintro _ ⟨⟩
    exact ⟨rfl, rfl⟩
  | none =>
    have hcheck' : headerCheck w { s with host := rest } = none := (headerCheck_congr w rfl rfl).trans hcheck
    exact ⟨_, step_header hf he hp hh, (acceptHeader_fault_of_none hcheck').trans hf, nofun⟩

end

/-- Settles O7: fault entry at the header, its fields written out. -/
theorem aFailedHeaderCheckTakesTheFault : Obligations.AFailedHeaderCheckTakesTheFault := by
  unfold Obligations.AFailedHeaderCheckTakesTheFault
  intro s w rest c hf he hp hh hcheck
  exact step_header_of_some hf he hp hh hcheck

/-- Settles O8: an opcode outside the map fails check 1; for one in it the decoder fails exactly where AUX is reserved and not zero;
and a header that the decoder takes meets the state checks. -/
theorem headerChecksInOrderOfPriority : Obligations.HeaderChecksInOrderOfPriority := by
  unfold Obligations.HeaderChecksInOrderOfPriority
  intro w s opc aux cause
  have hcause : headerCheck w s = cause := by
    by_cases hillegal : opc ∉ [0x01#8, 0x02#8, 0x03#8, 0x04#8, 0x05#8, 0x06#8, 0x07#8, 0x08#8, 0x10#8, 0x11#8, 0x12#8]
    · exact (headerCheck_of_error (decodeHeader_of_illegalOpcode hillegal)).trans (if_pos hillegal).symm
    have herror (e : HeaderError) := decodeHeader_eq_error_iff_of_legalOpcode (e := e) (not_not.mp hillegal)
    cases hd : decodeHeader w with
    | error e =>
      obtain ⟨rfl, hreserved⟩ := (herror e).mp hd
      exact (headerCheck_of_error hd).trans ((if_neg hillegal).trans (if_pos hreserved)).symm
    | ok k =>
      have htaken (e : HeaderError) : decodeHeader w ≠ .error e := by rw [hd]; nofun
      have hreserved := fun h => htaken .reservedAux ((herror .reservedAux).mpr ⟨rfl, h⟩)
      exact (headerCheck_eq_of_decodeHeader hd s).trans ((if_neg hillegal).trans (if_neg hreserved)).symm
  exact ⟨hcause, fun rest hf he hp hh => hcause ▸ step_header_fault hf he hp hh⟩

/-! ### No fault but at a header (R221, R224) -/

section
variable {s t : State}

/-- Once its state check passes, the sequence of INIT, UPDATE or POWER raises no fault. -/
theorem busCommand_fault {k : Header} {fs : List Frame} {result : Answer → State → State} (hf : s.fault = false)
    (hcheck : stateCheck k s = none) (hn : fs ≠ []) (hresult : ∀ a u, (result a u).fault = u.fault) :
    (busCommand k fs result s).fault = false := by
  rw [busCommand_of_none hcheck]
  obtain ⟨tr, b, ⟨a, hs⟩ | hs⟩ := runBus_cases_of_ne_nil hn result s <;> rw [hs]
  · exact (hresult a _).trans hf
  · rfl

/-- A command whose header passes the state checks raises no fault. -/
theorem exec_build_fault {k : Header} {op1 op2 op3 op4 : Word} {txt : List Byte} (hf : s.fault = false)
    (hcheck : stateCheck k s = none) (h : exec (k.build op1 op2 op3 op4 txt) s = .next t) : t.fault = false := by
  cases k with
  | init =>
    obtain rfl := Host.Outcome.next.inj ((exec_init s).symm.trans h)
    exact busCommand_fault hf hcheck (initSeq_ne_nil _ _) fun _ _ => rfl
  | update =>
    obtain ⟨bytes, hbytes⟩ := exists_readRange_of_exec_update hcheck h
    obtain rfl := Host.Outcome.next.inj ((exec_update hbytes).symm.trans h)
    exact busCommand_fault hf hcheck (updateSeq_ne_nil _ _) fun _ _ => rfl
  | power on =>
    obtain rfl := Host.Outcome.next.inj ((exec_power on s).symm.trans h)
    exact busCommand_fault hf hcheck (powerSeq_ne_nil _ _) fun _ _ => rfl
  | clear | pixel | line | rect | fill | text len | textc len | getpix =>
    obtain ⟨-, m, p, rfl, -⟩ | ⟨hbus, -⟩ | ⟨hbus, -⟩ | ⟨hi, -⟩ | ⟨hi, -⟩ | ⟨on, hi, -⟩ := exec_cases h
    · exact hf
    all_goals contradiction

/-- In the invariant, the command in the latches raises no fault when it executes. -/
theorem exec_fault_of_inv {i : Instr} (h : BlockInv s) (hf : s.fault = false) (he : s.exec = true) (hi : fetch s = .ok i)
    (ht : exec i s = .next t) : t.fault = false := by
  obtain ⟨hcheck, -⟩ := h.executing he
  obtain ⟨k, hk⟩ := decodeHeader_of_headerCheck hcheck
  obtain rfl := Except.ok.inj ((fetch_ok hk).symm.trans hi)
  exact exec_build_fault hf ((headerCheck_of_ok hk).symm.trans hcheck) ht

/-- In the invariant, a header in the latches of an executing command is legal. -/
theorem BlockInv.fetch_ne_error (h : BlockInv s) (he : s.exec = true) (e : HeaderError) : fetch s ≠ .error e := by
  obtain ⟨k, hk⟩ := decodeHeader_of_headerCheck (h.executing he).1
  rw [fetch_ok hk]
  nofun

/-- The outside's move sets FAULT only by a header word that fails a check. -/
theorem hostMove_sets_fault (hf : s.fault = false) (ht : (hostMove s).fault = true) :
    s.parse = .idle ∧ ∃ w rest c, s.host = .word w :: rest ∧ headerCheck w s = some c
      ∧ hostMove s = raiseFault c { s with host := rest, hdr := w } := by
  obtain ⟨-, hm⟩ | ⟨rest, -, hm⟩ | ⟨b, rest, -, hm⟩ | ⟨w, rest, hh, hm⟩ := hostMove_cases s <;> rw [hm] at ht
  · exact absurd (hf.symm.trans ht) nofun
  · exact absurd ht nofun
  · exact absurd (hf.symm.trans ht) nofun
  · obtain ⟨hp, c, hcheck, haccept⟩ := acceptWord_sets_fault (s := { s with host := rest }) hf ht
    exact ⟨hp, w, rest, c, hh, (headerCheck_congr w rfl rfl).symm.trans hcheck, hm.trans haccept⟩

end

/-- Settles O9: the engine raises no fault in the invariant, so the step is the outside's move, and that is fault entry at a header. -/
theorem everyFaultIsRaisedAtAHeader : Obligations.EveryFaultIsRaisedAtAHeader := by
  unfold Obligations.EveryFaultIsRaisedAtAHeader
  intro s t h hf hstep ht
  obtain ⟨hready, rfl⟩ | ⟨-, he, i, hi, hexec⟩ | ⟨-, he, e, hfetch, -⟩ := step_next_cases hstep
  · have he : s.exec = false := hready.resolve_left (hf ▸ Bool.false_ne_true)
    obtain ⟨hp, w, rest, c, hh, hcheck, hm⟩ := hostMove_sets_fault hf ht
    rw [hm]
    exact ⟨he, hp, ⟨w, rest, hh, hcheck, rfl, rfl, rfl⟩, rfl, ⟨rfl, rfl, rfl, rfl⟩, rfl, rfl⟩
  · exact absurd (ht.symm.trans (exec_fault_of_inv h hf he hi hexec)) nofun
  · exact absurd hfetch (h.fetch_ne_error he e)

/-! ### The fault state (R226) -/

section
variable {s : State}

/-- In the fault state a step with no reset uses up one move of the outside, and puts at most a new level at `xp_present`. -/
theorem step_of_fault (hf : s.fault = true) (hreset : HostEvent.reset ∉ s.host) :
    ∃ p, step s = .next { s with host := s.host.drop 1, xpPresent := p } := by
  rw [step_host (.inl hf)]
  obtain ⟨hh, hm⟩ | ⟨rest, hh, -⟩ | ⟨b, rest, hh, hm⟩ | ⟨w, rest, hh, hm⟩ := hostMove_cases s
  · exact ⟨s.xpPresent, by rw [hm, hh, List.drop_nil, ← hh]⟩
  · exact absurd (hh ▸ List.mem_cons_self) hreset
  · exact ⟨b, by rw [hm, hh, List.drop_one, List.tail_cons]⟩
  · exact ⟨s.xpPresent, by rw [hm, acceptWord_of_fault (s := { s with host := rest }) hf, hh, List.drop_one, List.tail_cons]⟩

/-- So do any number of steps. -/
theorem run_of_fault (n : Nat) (hf : s.fault = true) (hreset : HostEvent.reset ∉ s.host) :
    ∃ p, Host.Core.run core n s = .next { s with host := s.host.drop n, xpPresent := p } := by
  induction n generalizing s with
  | zero => exact ⟨s.xpPresent, run_zero s⟩
  | succ n ih =>
    obtain ⟨p, hstep⟩ := step_of_fault hf hreset
    obtain ⟨q, hrun⟩ := ih (s := { s with host := s.host.drop 1, xpPresent := p }) hf fun h => hreset (List.mem_of_mem_drop h)
    exact ⟨q, by rw [run_succ n hstep, hrun, List.drop_drop, Nat.add_comm 1 n]⟩

end

/-- Settles O10: the run changes `xp_present` and the host's moves only; BUSY and `cmd_ready` follow from FAULT = 1. -/
theorem theFaultStateLastsUntilReset : Obligations.TheFaultStateLastsUntilReset := by
  unfold Obligations.TheFaultStateLastsUntilReset
  intro n s hf hreset
  obtain ⟨p, hrun⟩ := run_of_fault n hf hreset
  exact ⟨_, hrun, ⟨rfl, rfl, rfl⟩, rfl, ⟨rfl, rfl, rfl, rfl⟩, ⟨rfl, rfl, rfl, rfl, rfl⟩, rfl, rfl, rfl,
    by simp [busy, hf], (cmdReady_eq_true_iff _).mpr (.inl hf)⟩

/-! ### The check repeated at execution (R222, R225) -/

section
variable {s : State}

/-- INIT in UNINIT with no transport. -/
theorem exec_init_of_absent (hp : s.pstate = .uninit) (hx : s.xpPresent = false) :
    exec .init s = .next (raiseFault .noTransport s) := by
  have hcheck : stateCheck .init s = some .noTransport := by simp [stateCheck, hp, hx]
  rw [exec_init, busCommand_of_some hcheck]

/-- UPDATE and POWER in ON or OFF with no transport. -/
theorem exec_of_absent {i : Instr} (hi : i = .update ∨ ∃ on, i = .power on) (hp : s.pstate ≠ .uninit) (hx : s.xpPresent = false) :
    exec i s = .next (raiseFault .noTransport s) := by
  obtain rfl | ⟨on, rfl⟩ := hi
  · have hcheck : stateCheck .update s = some .noTransport := by simp [stateCheck, hp, hx]
    simp only [exec, execUpdate, hcheck]
  · have hcheck : stateCheck (.power on) s = some .noTransport := by simp [stateCheck, hp, hx]
    rw [exec_power, busCommand_of_some hcheck]

end

/-- Settles O48: each clause is fault entry with the cause of the failed state check. -/
theorem busCommandsFaultInTheWrongState : Obligations.BusCommandsFaultInTheWrongState := by
  unfold Obligations.BusCommandsFaultInTheWrongState
  intro s
  exact ⟨exec_init_of_ne_uninit, exec_init_of_absent, fun i => exec_of_uninit, fun i => exec_of_absent⟩

end Sys2Proof.Machine

/-! ## The reset and hazards family: no step stops, a partial command waits, a reset abandons a transaction -/

namespace Sys2Proof.Machine

/-! ### Every step answers a next state (70_reset_and_hazards.md R260, 20_memory.md R54) -/

/-- On a canonical framebuffer every command answers a next state: GETPIX and UPDATE find the bytes they read, and no other command
can stop. -/
theorem exec_next_of_wf {s : State} (hm : Memory.wf 360 s.fb = true) (i : Instr) : ∃ t, exec i s = .next t := by
  cases i with
  | clear | pixel | line | rect | fill | text | textc => exact ⟨_, rfl⟩
  | getpix x y =>
    obtain ⟨t, ht, -⟩ := getpixReadsItsPixel s x y hm
    exact ⟨t, ht⟩
  | init => exact ⟨_, exec_init s⟩
  | update =>
    obtain ⟨bytes, hbytes, -⟩ := exists_readRange_framebuffer hm
    exact ⟨_, exec_update hbytes⟩
  | power on => exact ⟨_, exec_power on s⟩

/-- Settles O4: the outside's move and a rejected header always answer, and the engine does on the invariant's framebuffer. -/
theorem everyStepAnswersANextState : Obligations.EveryStepAnswersANextState := by
  unfold Obligations.EveryStepAnswersANextState
  intro s h
  obtain ⟨-, hstep⟩ | ⟨-, -, i, -, hstep⟩ | ⟨-, -, e, -, hstep⟩ := step_cases s
  · exact ⟨_, hstep⟩
  · rw [hstep]
    exact exec_next_of_wf h.framebuffer i
  · exact ⟨_, hstep⟩

/-! ### A partial command waits (R258) -/

section
variable {s : State}

/-- While no command executes and the outside only moves `xp_present`, a step uses up one such move, if one comes. -/
theorem step_of_attach_only (he : s.exec = false) (hattach : ∀ e ∈ s.host, ∃ p, e = .attach p) :
    ∃ p, step s = .next { s with xpPresent := p, host := s.host.drop 1 } := by
  obtain ⟨hmove, hwait⟩ := theAttachInputAndWaiting s (.inr he)
  cases hh : s.host with
  | nil => exact ⟨s.xpPresent, by rw [hwait hh, List.drop_nil, ← hh]⟩
  | cons e rest =>
    obtain ⟨p, rfl⟩ := hattach e (hh ▸ List.mem_cons_self)
    exact ⟨p, hmove p rest hh⟩

/-- So do any number of steps. -/
theorem run_of_attach_only (n : Nat) (he : s.exec = false) (hattach : ∀ e ∈ s.host, ∃ p, e = .attach p) :
    ∃ p, Host.Core.run core n s = .next { s with xpPresent := p, host := s.host.drop n } := by
  induction n generalizing s with
  | zero => exact ⟨s.xpPresent, run_zero s⟩
  | succ n ih =>
    obtain ⟨p, hstep⟩ := step_of_attach_only he hattach
    obtain ⟨q, hrun⟩ := ih (s := { s with xpPresent := p, host := s.host.drop 1 }) he fun e h => hattach e (List.mem_of_mem_drop h)
    exact ⟨q, by rw [run_succ n hstep, hrun, List.drop_drop, Nat.add_comm 1 n]⟩

end

/-- Settles O12: the run changes `xp_present` and the host's moves only, so PARSE is still COLLECT, and BUSY follows from it. -/
theorem aPartialCommandWaitsForever : Obligations.APartialCommandWaitsForever := by
  unfold Obligations.APartialCommandWaitsForever
  intro n s hf he hp hattach
  obtain ⟨p, hrun⟩ := run_of_attach_only n he hattach
  exact ⟨_, hrun, hp, (busy_iff _).mpr ⟨hf, .inl hp⟩, rfl⟩

/-! ### A reset in a transaction (R250, R251) -/

/-- The records of a sequence cut off by a reset: one OK for each transaction before it, then the abandoned one. -/
theorem exists_records_of_reset {fs : List Frame} {es : List XpEvent} {e : XpEvent} (hlen : es.length < fs.length) (hok : AllOk es)
    (he : e.kind = .reset) :
    ∃ rs r, List.zipWith txnRecord fs (es ++ [e]) = rs ++ [r] ∧ rs.length = es.length ∧ (∀ q ∈ rs, q.fin = .answered .ok)
      ∧ r.fin = .abandoned := by
  induction es generalizing fs with
  | nil =>
    obtain ⟨f, fs, rfl⟩ := List.exists_cons_of_length_pos hlen
    exact ⟨[], txnRecord f e, by simp, rfl, nofun, eventEnd_reset he⟩
  | cons d es ih =>
    obtain ⟨f, fs, rfl⟩ := List.exists_cons_of_length_pos (Nat.zero_lt_of_lt hlen)
    obtain ⟨hd, hok⟩ := List.forall_mem_cons.mp hok
    obtain ⟨rs, r, hrecords, hcount, hfin, hlast⟩ := ih (Nat.lt_of_succ_lt_succ hlen) hok
    exact ⟨txnRecord f d :: rs, r, by simp [hrecords], by simp [hcount], List.forall_mem_cons.mpr ⟨hd, hfin⟩, hlast⟩

/-- A reset in a sequence ends its command in the reset state. -/
theorem runBus_of_reset {fs : List Frame} {result : Answer → State → State} {s : State} {es rest : List XpEvent} {e : XpEvent}
    (ht : s.transport = es ++ e :: rest) (hlen : es.length < fs.length) (hok : AllOk es) (he : e.kind = .reset) :
    runBus fs result s
      = takeReset { s with inFlight := none, transport := rest, bus := s.bus ++ List.zipWith txnRecord fs (es ++ [e]) } := by
  have hn : fs ≠ [] := List.ne_nil_of_length_pos (Nat.zero_lt_of_lt hlen)
  have hend : eventEnd e = .abandoned := eventEnd_reset he
  have hfail : eventEnd e ≠ .answered .ok := hend ▸ nofun
  exact runBus_of_abandoned ((runSeq_inFlight hn s none).symm.trans (hend ▸ runSeq_of_failure rfl ht hlen hok hfail))

/-- Settles O49: past its state check each of the three commands runs its sequence, and the reset cuts that off in the reset state. -/
theorem aResetAbandonsTheOpenTransaction : Obligations.AResetAbandonsTheOpenTransaction := by
  unfold Obligations.AResetAbandonsTheOpenTransaction
  intro s i es rest e hm hx hi ht hok he
  obtain ⟨k, fs, result, hexec, hcheck, hlen⟩ : ∃ k fs result, exec i s = .next (busCommand k fs result s) ∧ stateCheck k s = none
      ∧ es.length < fs.length := by
    obtain ⟨rfl, hp, hlen⟩ | ⟨rfl, hp, hlen⟩ | ⟨⟨on, rfl⟩, hp, hlen⟩ := hi
    · exact ⟨_, _, _, exec_init s, stateCheck_init_of_uninit hp hx, hlen⟩
    · obtain ⟨bytes, hbytes, -⟩ := exists_readRange_framebuffer hm
      exact ⟨_, _, _, exec_update hbytes, stateCheck_update_of_ne_uninit hp hx, hlen⟩
    · exact ⟨_, _, _, exec_power on s, stateCheck_power_of_ne_uninit on hp hx, hlen⟩
  obtain ⟨rs, r, hrecords, hcount, hfin, hlast⟩ := exists_records_of_reset hlen hok he
  rw [busCommand_of_none hcheck, runBus_of_reset ht hlen hok he, hrecords, ← List.append_assoc] at hexec
  exact ⟨_, rs, r, hexec, rfl, hcount, hfin, hlast, rfl, rfl, rfl, rfl⟩

end Sys2Proof.Machine
